-- ==== Sys2Proof/Word.lean ====
section
/-! DEFINITION. The words of the machine: 8-bit bytes (registers, timers, memory cells) and 16-bit
words (instruction words, `pc`, `I`, saved return addresses). spec/00_scope.md R6, R9: every value
is an unsigned integer of a stated width. -/

namespace Sys2Proof

/-- An 8-bit value (R6: `REG_W`, `TIMER_W`, one byte of memory). -/
abbrev Byte := BitVec 8

/-- A 16-bit value (R6: `INSN_W`, `I_W`; R7: `PC_W`). -/
abbrev Word := BitVec 16

/-- A 4-bit field of an instruction word (R16: "a 4-bit field of an opcode"). -/
abbrev Nibble := BitVec 4

end Sys2Proof
end

