-- ==== Sys2Proof/Syntax.lean ====
section
/-! DEFINITION. The instructions: one constructor per row of spec/opcode_table.json
(spec/30_encoding.md R80), with the operand fields of R73 already extracted; and the names of the
decode misses (R82). -/

namespace Sys2Proof

/-- The number of a general register, V0 to VF (R21). -/
abbrev Reg := Fin 16

/-- A key of the keypad, 0x0 to 0xF (R34). -/
abbrev Key := Fin 16

/-- `VF`, the only flag: another name for `V[15]` (R21, R23). -/
abbrev vf : Reg := 15

/-- The 34 instructions of R80, in the table's order. `x`, `y` are register numbers, `nn` the 8-bit
immediate, `nnn` the 12-bit address zero-extended to 16 bits (R75: used as it stands), `n` the sprite
height. `Instr.WellFormed` says `nnn` fits 12 bits and `n` fits 4. -/
inductive Instr where
  /-- 00E0, clear screen (R160). -/
  | cls
  /-- 00EE, return (R100). -/
  | ret
  /-- 1nnn, jump (R101). -/
  | jp (nnn : Word)
  /-- 2nnn, call (R102). -/
  | call (nnn : Word)
  /-- 3xnn, skip if V[x] = nn (R103). -/
  | seImm (x : Reg) (nn : Byte)
  /-- 4xnn, skip if V[x] ≠ nn (R104). -/
  | sneImm (x : Reg) (nn : Byte)
  /-- 5xy0, skip if V[x] = V[y] (R105). -/
  | seReg (x y : Reg)
  /-- 6xnn, set register (R120). -/
  | ldImm (x : Reg) (nn : Byte)
  /-- 7xnn, add immediate (R121). -/
  | addImm (x : Reg) (nn : Byte)
  /-- 8xy0, copy (R122). -/
  | ldReg (x y : Reg)
  /-- 8xy1, or (R123). -/
  | orReg (x y : Reg)
  /-- 8xy2, and (R124). -/
  | andReg (x y : Reg)
  /-- 8xy3, exclusive or (R125). -/
  | xorReg (x y : Reg)
  /-- 8xy4, add, carry to VF (R126). -/
  | addReg (x y : Reg)
  /-- 8xy5, subtract x − y, no-borrow to VF (R127). -/
  | subReg (x y : Reg)
  /-- 8xy6, shift V[y] right into V[x] (R128). -/
  | shr (x y : Reg)
  /-- 8xy7, subtract y − x, no-borrow to VF (R129). -/
  | subnReg (x y : Reg)
  /-- 8xyE, shift V[y] left into V[x] (R130). -/
  | shl (x y : Reg)
  /-- 9xy0, skip if V[x] ≠ V[y] (R106). -/
  | sneReg (x y : Reg)
  /-- Annn, set the address register (R140). -/
  | ldI (nnn : Word)
  /-- Bnnn, jump with offset V[0] (R107). -/
  | jpV0 (nnn : Word)
  /-- Cxnn, random (R132). -/
  | rnd (x : Reg) (nn : Byte)
  /-- Dxyn, draw sprite (R162). -/
  | drw (x y : Reg) (n : Nat)
  /-- Ex9E, skip if key down (R170). -/
  | skp (x : Reg)
  /-- ExA1, skip if key up (R171). -/
  | sknp (x : Reg)
  /-- Fx07, read the delay timer (R172). -/
  | ldVxDt (x : Reg)
  /-- Fx0A, block for key (R173). -/
  | ldVxK (x : Reg)
  /-- Fx15, set the delay timer (R174). -/
  | ldDtVx (x : Reg)
  /-- Fx18, set the sound timer (R175). -/
  | ldStVx (x : Reg)
  /-- Fx1E, add to the address register (R141). -/
  | addI (x : Reg)
  /-- Fx29, font character address (R142). -/
  | ldF (x : Reg)
  /-- Fx33, store decimal digits (R143). -/
  | ldB (x : Reg)
  /-- Fx55, register dump (R144). -/
  | storeRegs (x : Reg)
  /-- Fx65, register load (R145). -/
  | loadRegs (x : Reg)
  deriving DecidableEq, Repr

/-- Why a word is no instruction: the four classes of R82, each with the second-level key that no
handler has (R78), and a byte list too short to hold a word. -/
inductive DecodeMiss where
  /-- R82 (a): top nibble 0, low byte neither 0xE0 nor 0xEE. -/
  | zeroKey (nn : Byte)
  /-- R82 (b): top nibble 8, low nibble 8 to 0xD or 0xF. -/
  | eightKey (n : Nibble)
  /-- R82 (c): top nibble 0xE, low byte neither 0x9E nor 0xA1. -/
  | keypadKey (nn : Byte)
  /-- R82 (d): top nibble 0xF, low byte none of the nine keys. -/
  | miscKey (nn : Byte)
  /-- Fewer than two bytes were given; the machine's own fetch always gives two (R71). -/
  | truncated
  deriving DecidableEq, Repr

/-- What the decoder answers for a word: an instruction, or a decode miss, which the machine executes
as a no-operation (R83). -/
inductive Decoded where
  | instr (i : Instr)
  | miss (why : DecodeMiss)
  deriving DecidableEq, Repr

end Sys2Proof
end

