-- ==== Sys2Proof/WellFormed.lean ====
section
/-! DEFINITION. Which instruction terms an instruction word can spell: the address field `nnn` has 12
bits and the sprite height `n` has 4 (spec/30_encoding.md R73, R75). Register numbers and immediate
bytes fit by their types. -/

namespace Sys2Proof

/-- `nnn` is "12-bit address `nnn` (bits 0–11)", 0..4095 (R73, R75). -/
abbrev fitsAddress (nnn : Word) : Prop := nnn.toNat < 4096

/-- `n` is "4-bit immediate `n` (bits 0–3)", 0..15 (R73, R75). -/
abbrev fitsNibble (n : Nat) : Prop := n < 16

/-- The operands fit the fields of the instruction's format (R81). -/
def Instr.wellFormed : Instr → Bool
  | .cls => true
  | .ret => true
  | .jp nnn => decide (fitsAddress nnn)
  | .call nnn => decide (fitsAddress nnn)
  | .seImm _ _ => true
  | .sneImm _ _ => true
  | .seReg _ _ => true
  | .ldImm _ _ => true
  | .addImm _ _ => true
  | .ldReg _ _ => true
  | .orReg _ _ => true
  | .andReg _ _ => true
  | .xorReg _ _ => true
  | .addReg _ _ => true
  | .subReg _ _ => true
  | .shr _ _ => true
  | .subnReg _ _ => true
  | .shl _ _ => true
  | .sneReg _ _ => true
  | .ldI nnn => decide (fitsAddress nnn)
  | .jpV0 nnn => decide (fitsAddress nnn)
  | .rnd _ _ => true
  | .drw _ _ n => decide (fitsNibble n)
  | .skp _ => true
  | .sknp _ => true
  | .ldVxDt _ => true
  | .ldVxK _ => true
  | .ldDtVx _ => true
  | .ldStVx _ => true
  | .addI _ => true
  | .ldF _ => true
  | .ldB _ => true
  | .storeRegs _ => true
  | .loadRegs _ => true

/-- An instruction some word spells. -/
abbrev Instr.WellFormed (i : Instr) : Prop := i.wellFormed = true

end Sys2Proof
end

