-- ==== Sys2Proof/Decode.lean ====
section
/-! DEFINITION. The decoder and the encoder (spec/30_encoding.md): field extraction (R73), the
two-level dispatch (R76 to R79), the decode misses (R82), the opcode map (R80), and the encoder that
spells every well-formed instruction with its don't-care bits zero (R17: the canonical encoding). -/

namespace Sys2Proof

/-! ## Fields (R73) -/

/-- Bits 15..12, the first-level dispatch key. -/
def Word.topNibble (w : Word) : Nibble := w.extractLsb' 12 4

/-- `x`, bits 11..8, a register number. -/
def Word.xField (w : Word) : Reg := (w.extractLsb' 8 4).toFin

/-- `y`, bits 7..4, a register number. -/
def Word.yField (w : Word) : Reg := (w.extractLsb' 4 4).toFin

/-- `n`, bits 3..0: the sprite height, and the second-level key under top nibble 8. -/
def Word.nField (w : Word) : Nibble := w.extractLsb' 0 4

/-- `nn`, bits 7..0: the immediate, and the second-level key under top nibbles 0, E and F. -/
def Word.nnField (w : Word) : Byte := w.extractLsb' 0 8

/-- `nnn`, bits 11..0, zero-extended (R75, R140: `zext_16(nnn)`). -/
def Word.nnnField (w : Word) : Word := (w.extractLsb' 0 12).setWidth 16

/-! ## Dispatch (R76, R77, R80) -/

/-- Top nibble 0, by the low byte; bits 11..8 are not examined (R79). -/
def decodeZero (w : Word) : Decoded :=
  match w.nnField with
  | 0xE0#8 => .instr .cls
  | 0xEE#8 => .instr .ret
  | nn => .miss (.zeroKey nn)

/-- Top nibble 8, by the low nibble. -/
def decodeEight (w : Word) : Decoded :=
  match w.nField with
  | 0x0#4 => .instr (.ldReg w.xField w.yField)
  | 0x1#4 => .instr (.orReg w.xField w.yField)
  | 0x2#4 => .instr (.andReg w.xField w.yField)
  | 0x3#4 => .instr (.xorReg w.xField w.yField)
  | 0x4#4 => .instr (.addReg w.xField w.yField)
  | 0x5#4 => .instr (.subReg w.xField w.yField)
  | 0x6#4 => .instr (.shr w.xField w.yField)
  | 0x7#4 => .instr (.subnReg w.xField w.yField)
  | 0xE#4 => .instr (.shl w.xField w.yField)
  | n => .miss (.eightKey n)

/-- Top nibble 0xE, by the low byte. -/
def decodeKeypad (w : Word) : Decoded :=
  match w.nnField with
  | 0x9E#8 => .instr (.skp w.xField)
  | 0xA1#8 => .instr (.sknp w.xField)
  | nn => .miss (.keypadKey nn)

/-- Top nibble 0xF, by the low byte. -/
def decodeMisc (w : Word) : Decoded :=
  match w.nnField with
  | 0x07#8 => .instr (.ldVxDt w.xField)
  | 0x0A#8 => .instr (.ldVxK w.xField)
  | 0x15#8 => .instr (.ldDtVx w.xField)
  | 0x18#8 => .instr (.ldStVx w.xField)
  | 0x1E#8 => .instr (.addI w.xField)
  | 0x29#8 => .instr (.ldF w.xField)
  | 0x33#8 => .instr (.ldB w.xField)
  | 0x55#8 => .instr (.storeRegs w.xField)
  | 0x65#8 => .instr (.loadRegs w.xField)
  | nn => .miss (.miscKey nn)

/-- The decoder, total on all 65536 words (R84): the top nibble first (R76), then the second-level
key where one is needed (R77). Under 5 and 9 the low nibble is not examined (R79). -/
def decodeWord (w : Word) : Decoded :=
  match w.topNibble with
  | 0x0#4 => decodeZero w
  | 0x1#4 => .instr (.jp w.nnnField)
  | 0x2#4 => .instr (.call w.nnnField)
  | 0x3#4 => .instr (.seImm w.xField w.nnField)
  | 0x4#4 => .instr (.sneImm w.xField w.nnField)
  | 0x5#4 => .instr (.seReg w.xField w.yField)
  | 0x6#4 => .instr (.ldImm w.xField w.nnField)
  | 0x7#4 => .instr (.addImm w.xField w.nnField)
  | 0x8#4 => decodeEight w
  | 0x9#4 => .instr (.sneReg w.xField w.yField)
  | 0xA#4 => .instr (.ldI w.nnnField)
  | 0xB#4 => .instr (.jpV0 w.nnnField)
  | 0xC#4 => .instr (.rnd w.xField w.nnField)
  | 0xD#4 => .instr (.drw w.xField w.yField w.nField.toNat)
  | 0xE#4 => decodeKeypad w
  | _ => decodeMisc w -- 0xF, the one nibble left

/-- Two bytes as memory holds them: the byte at the lower address is the more significant (R52). -/
def wordOfBytes (hi lo : Byte) : Word := hi ++ lo

/-- Decode the instruction at the head of a byte list and give the rest; total on any bytes, a list
shorter than one word is rejected by name. -/
def decode : List Byte → Decoded × List Byte
  | hi :: lo :: rest => (decodeWord (wordOfBytes hi lo), rest)
  | short => (.miss .truncated, short)

/-! ## The opcode map (R80) -/

/-- One row of the opcode map: a word `op` selects it when `op & mask = match`. -/
structure OpcodeRow where
  fixed : Word
  mask : Word
  deriving DecidableEq, Repr

/-- The row of R80 that stands for an instruction: its match and mask. -/
def Instr.row : Instr → OpcodeRow
  | .cls => ⟨0x00E0#16, 0xF0FF#16⟩
  | .ret => ⟨0x00EE#16, 0xF0FF#16⟩
  | .jp _ => ⟨0x1000#16, 0xF000#16⟩
  | .call _ => ⟨0x2000#16, 0xF000#16⟩
  | .seImm _ _ => ⟨0x3000#16, 0xF000#16⟩
  | .sneImm _ _ => ⟨0x4000#16, 0xF000#16⟩
  | .seReg _ _ => ⟨0x5000#16, 0xF000#16⟩
  | .ldImm _ _ => ⟨0x6000#16, 0xF000#16⟩
  | .addImm _ _ => ⟨0x7000#16, 0xF000#16⟩
  | .ldReg _ _ => ⟨0x8000#16, 0xF00F#16⟩
  | .orReg _ _ => ⟨0x8001#16, 0xF00F#16⟩
  | .andReg _ _ => ⟨0x8002#16, 0xF00F#16⟩
  | .xorReg _ _ => ⟨0x8003#16, 0xF00F#16⟩
  | .addReg _ _ => ⟨0x8004#16, 0xF00F#16⟩
  | .subReg _ _ => ⟨0x8005#16, 0xF00F#16⟩
  | .shr _ _ => ⟨0x8006#16, 0xF00F#16⟩
  | .subnReg _ _ => ⟨0x8007#16, 0xF00F#16⟩
  | .shl _ _ => ⟨0x800E#16, 0xF00F#16⟩
  | .sneReg _ _ => ⟨0x9000#16, 0xF000#16⟩
  | .ldI _ => ⟨0xA000#16, 0xF000#16⟩
  | .jpV0 _ => ⟨0xB000#16, 0xF000#16⟩
  | .rnd _ _ => ⟨0xC000#16, 0xF000#16⟩
  | .drw _ _ _ => ⟨0xD000#16, 0xF000#16⟩
  | .skp _ => ⟨0xE09E#16, 0xF0FF#16⟩
  | .sknp _ => ⟨0xE0A1#16, 0xF0FF#16⟩
  | .ldVxDt _ => ⟨0xF007#16, 0xF0FF#16⟩
  | .ldVxK _ => ⟨0xF00A#16, 0xF0FF#16⟩
  | .ldDtVx _ => ⟨0xF015#16, 0xF0FF#16⟩
  | .ldStVx _ => ⟨0xF018#16, 0xF0FF#16⟩
  | .addI _ => ⟨0xF01E#16, 0xF0FF#16⟩
  | .ldF _ => ⟨0xF029#16, 0xF0FF#16⟩
  | .ldB _ => ⟨0xF033#16, 0xF0FF#16⟩
  | .storeRegs _ => ⟨0xF055#16, 0xF0FF#16⟩
  | .loadRegs _ => ⟨0xF065#16, 0xF0FF#16⟩

/-! ## The encoder (R80, R81) -/

/-- Formats XNN, X and NONE: top nibble, `x`, low byte. -/
def formatXNN (top : Nibble) (x : Reg) (nn : Byte) : Word := (top ++ (BitVec.ofFin x : Nibble)) ++ nn

/-- Formats XY and XYN: top nibble, `x`, `y`, low nibble. -/
def formatXYN (top : Nibble) (x y : Reg) (n : Nibble) : Word :=
  ((top ++ (BitVec.ofFin x : Nibble)) ++ (BitVec.ofFin y : Nibble)) ++ n

/-- Format NNN: top nibble, the low twelve bits of the address. -/
def formatNNN (top : Nibble) (nnn : Word) : Word := top ++ nnn.setWidth 12

/-- The word of an instruction, its don't-care bits zero (R79: the canonical encoding). -/
def encodeWord : Instr → Word
  | .cls => formatXNN 0x0#4 0 0xE0#8
  | .ret => formatXNN 0x0#4 0 0xEE#8
  | .jp nnn => formatNNN 0x1#4 nnn
  | .call nnn => formatNNN 0x2#4 nnn
  | .seImm x nn => formatXNN 0x3#4 x nn
  | .sneImm x nn => formatXNN 0x4#4 x nn
  | .seReg x y => formatXYN 0x5#4 x y 0x0#4
  | .ldImm x nn => formatXNN 0x6#4 x nn
  | .addImm x nn => formatXNN 0x7#4 x nn
  | .ldReg x y => formatXYN 0x8#4 x y 0x0#4
  | .orReg x y => formatXYN 0x8#4 x y 0x1#4
  | .andReg x y => formatXYN 0x8#4 x y 0x2#4
  | .xorReg x y => formatXYN 0x8#4 x y 0x3#4
  | .addReg x y => formatXYN 0x8#4 x y 0x4#4
  | .subReg x y => formatXYN 0x8#4 x y 0x5#4
  | .shr x y => formatXYN 0x8#4 x y 0x6#4
  | .subnReg x y => formatXYN 0x8#4 x y 0x7#4
  | .shl x y => formatXYN 0x8#4 x y 0xE#4
  | .sneReg x y => formatXYN 0x9#4 x y 0x0#4
  | .ldI nnn => formatNNN 0xA#4 nnn
  | .jpV0 nnn => formatNNN 0xB#4 nnn
  | .rnd x nn => formatXNN 0xC#4 x nn
  | .drw x y n => formatXYN 0xD#4 x y (BitVec.ofNat 4 n)
  | .skp x => formatXNN 0xE#4 x 0x9E#8
  | .sknp x => formatXNN 0xE#4 x 0xA1#8
  | .ldVxDt x => formatXNN 0xF#4 x 0x07#8
  | .ldVxK x => formatXNN 0xF#4 x 0x0A#8
  | .ldDtVx x => formatXNN 0xF#4 x 0x15#8
  | .ldStVx x => formatXNN 0xF#4 x 0x18#8
  | .addI x => formatXNN 0xF#4 x 0x1E#8
  | .ldF x => formatXNN 0xF#4 x 0x29#8
  | .ldB x => formatXNN 0xF#4 x 0x33#8
  | .storeRegs x => formatXNN 0xF#4 x 0x55#8
  | .loadRegs x => formatXNN 0xF#4 x 0x65#8

/-- A word as memory holds it, the more significant byte first (R52). -/
def bytesOfWord (w : Word) : List Byte := [w.extractLsb' 8 8, w.extractLsb' 0 8]

/-- The two bytes of an instruction. -/
def encode (i : Instr) : List Byte := bytesOfWord (encodeWord i)

/-! ## Words as spec/opcode_table.json numbers their bits -/

/-- The bytes of an instruction whose bits are `w`, as the table numbers them: bit 0 the least
significant bit of the one word; every bit from `nbits` up is 0. -/
def tableBytes (nbits w : Nat) : List Byte := bytesOfWord (BitVec.ofNat 16 (w % 2 ^ nbits))

/-- The instruction the decoder reads from a table word, `none` on a decode miss. -/
def decodeTableWord (nbits w : Nat) : Option Instr :=
  match (decode (tableBytes nbits w)).1 with
  | .instr i => some i
  | .miss _ => none

end Sys2Proof
end

