-- ==== Sys2Proof/Config.lean ====
section
/-! DEFINITION. The parameters of spec/00_scope.md R6 and R7 and the host's free inputs (R13). A
parameter the spec gives a value is a definition; `FONT` and the ROM are arguments of
`State.construct`, and the default of `FONT` stands here; `BURST`, which the spec leaves open, and every
input the host supplies are opaque constants: nothing in Lean can evaluate one. -/

namespace Sys2Proof

/-- `PROG_BASE`, the address of the first program byte and the reset value of `pc` (R6). -/
abbrev Config.progBase : Nat := 0x200

/-- `ROM_MAX` = 4096 − 0x200, the longest program (R6, R242). -/
abbrev Config.romMax : Nat := 3584

/-- `MEM_FILL`, what memory that neither font nor ROM covers holds at reset (R7, R45). -/
abbrev Config.memFill : Byte := 0x00#8

/-- The default value of the parameter `FONT`, 16 glyphs of 5 bytes: the table of
spec/70_reset_and_hazards.md R243. `FONT` itself (R7) is an argument of `State.construct`; this default
is the font of `State.reset` and `State.withRom`. DESIGN CHOICE (log 2). unsafe: a claim about the bytes
0 to 79 of a machine that starts from one of those two rests on these bytes. -/
def Config.font : List Byte :=
  [0xF0#8, 0x90#8, 0x90#8, 0x90#8, 0xF0#8] ++
  [0x20#8, 0x60#8, 0x20#8, 0x20#8, 0x70#8] ++
  [0xF0#8, 0x10#8, 0xF0#8, 0x80#8, 0xF0#8] ++
  [0xF0#8, 0x10#8, 0xF0#8, 0x10#8, 0xF0#8] ++
  [0x90#8, 0x90#8, 0xF0#8, 0x10#8, 0x10#8] ++
  [0xF0#8, 0x80#8, 0xF0#8, 0x10#8, 0xF0#8] ++
  [0xF0#8, 0x80#8, 0xF0#8, 0x90#8, 0xF0#8] ++
  [0xF0#8, 0x10#8, 0x20#8, 0x40#8, 0x40#8] ++
  [0xF0#8, 0x90#8, 0xF0#8, 0x90#8, 0xF0#8] ++
  [0xF0#8, 0x90#8, 0xF0#8, 0x10#8, 0xF0#8] ++
  [0xF0#8, 0x90#8, 0xF0#8, 0x90#8, 0x90#8] ++
  [0xE0#8, 0x90#8, 0xE0#8, 0x90#8, 0xE0#8] ++
  [0xF0#8, 0x80#8, 0x80#8, 0x80#8, 0xF0#8] ++
  [0xE0#8, 0x90#8, 0x90#8, 0x90#8, 0xE0#8] ++
  [0xF0#8, 0x80#8, 0xF0#8, 0x80#8, 0xF0#8] ++
  [0xF0#8, 0x80#8, 0xF0#8, 0x80#8, 0x80#8]

/-- The default table as the 80 bytes `FONT` is (R7). -/
def Config.defaultFont : Vector Byte 80 := ⟨⟨Config.font⟩, rfl⟩

/-- `BURST` − 1, left open by the spec (R7, D15). safe: any number is admitted (log 1). -/
opaque Config.burstMore : Nat

/-- `BURST`, the instruction steps of one frame: "a natural number, at least 1" (R7). -/
def Config.burst : Nat := Config.burstMore + 1

/-- The byte the host supplies at the `k`-th execution of Cxnn (R132, R230). safe: no law (log 3). -/
opaque Config.randomByte : Nat → Byte

/-- `kd`, the key the host reports held in frame `f` (R226). safe: any answer (log 4). -/
opaque Config.hostKeyDown : Nat → Option Key

/-- `kr`, the key the host reports released in frame `f` (R226). safe: any answer (log 4). -/
opaque Config.hostKeyReleased : Nat → Option Key

/-- Whether the host asserts `stop` at step 6 of frame `f` (R229). safe: any answer (log 5). -/
opaque Config.hostStop : Nat → Bool

end Sys2Proof
end

