-- ==== Sys2Proof/Machine/State.lean ====
section
/-! DEFINITION. The architectural state (spec/10_state.md R20), the halt record (R36,
spec/60_exceptions.md R201), the position of the frame sequencer (R37, R210), the stop reasons of the
interface, and the state right after reset (R45, spec/70_reset_and_hazards.md R241). -/

namespace Sys2Proof.Machine

/-- Memory as (address, byte) pairs in one canonical form (`Memory.wf`); an unlisted address reads
as `Memory.resetByte` (R38, R50). -/
abbrev Memory := List Host.Cell

/-- The frame buffer: 32 rows of 64 pixels, on or off, row-major (R31). -/
abbrev FrameBuffer := Vector (Vector Bool 64) 32

/-- The position of the frame sequencer: which step of R211 is next (R210). -/
inductive Phase where
  /-- Step 1, sample the keys. -/
  | sample
  /-- Step 2, count the timers down. -/
  | countdown
  /-- Step 3, evaluate the tone before the burst. -/
  | soundBefore
  /-- Step 4: an instruction step is next, and `more` instruction steps of the burst follow it. -/
  | burst (more : Nat)
  /-- Step 5, evaluate the tone after the burst. -/
  | soundAfter
  /-- Step 6, the host reads `fb` and may stop the machine. -/
  | render
  /-- Step 7, clear the key snapshot. -/
  | clear
  deriving DecidableEq, Repr

/-- The four faults of R201 with the information each records. The machine TAKES a fault: the step
answers a next state whose `halt` holds it (R203), so no step answers `Host.Outcome.fault` (log 7). -/
inductive Fault where
  /-- Raised by the fetch when `pc > 4094` (R53), with that `pc`. safe: the spec's own effect. -/
  | fetchOutOfRange (pc : Nat)
  /-- Raised by Dxyn, Fx33, Fx55 and Fx65 when the highest address they would touch exceeds 4095
  (R56, R146, R162), with that address. safe: the spec's own effect. -/
  | memOutOfRange (address : Nat)
  /-- Raised by 2nnn with sixteen entries on the stack (R102). safe: the spec's own effect. -/
  | stackOverflow
  /-- Raised by 00EE with an empty stack (R100). safe: the spec's own effect. -/
  | stackUnderflow
  deriving DecidableEq, Repr

/-- The halt record (R36): a fault with the address of the faulting instruction, or the host's stop. -/
inductive Halt where
  | fault (cause : Fault) (address : Word)
  | stopped
  deriving DecidableEq, Repr

/-- Why something has no meaning in the model. No instruction is refused. -/
inductive Refusal where
  /-- Answered by an arm of `exec` for an instruction without a meaning; no arm does. safe. -/
  | notModelled (mnemonic : String)
  /-- Answered by `State.construct` for a program longer than 3584 bytes: "a longer ROM is refused: no
  machine is constructed" (R242). safe. -/
  | romTooLong (len : Nat)
  deriving DecidableEq, Repr

/-- The state of the machine: the tuple of R20, the sequencer's position (R37), and the model's two
counters of free inputs (log 6). -/
structure State where
  /-- The sixteen general registers, `V[15]` being `VF` (R21). -/
  V : Vector Byte 16
  /-- The address register (R28). -/
  I : Word
  /-- The program counter (R25). -/
  pc : Word
  /-- The call stack, the newest entry last (R29). -/
  stack : List Word
  /-- The frame buffer (R31). -/
  fb : FrameBuffer
  /-- The delay timer (R32). -/
  DT : Byte
  /-- The sound timer (R32). -/
  ST : Byte
  /-- The key down in this frame's snapshot (R34). -/
  keyDown : Option Key
  /-- The key released in this frame's snapshot (R34). -/
  keyReleased : Option Key
  /-- Whether the core last commanded start-tone (R35). -/
  tone : Bool
  /-- The halt record (R36). -/
  halt : Option Halt
  /-- The position of the frame sequencer (R37). -/
  phase : Phase
  /-- The 4096 bytes of memory (R38). -/
  mem : Memory
  /-- The model's own: frames completed, selecting the host's free answers of a frame (log 6). -/
  frame : Nat
  /-- The model's own: random bytes taken, selecting the next free byte (log 6). -/
  randoms : Nat
  deriving DecidableEq, Repr

/-- Every pixel off: the frame buffer at reset (R45) and after 00E0 (R160). -/
def FrameBuffer.blank : FrameBuffer := Vector.replicate 32 (Vector.replicate 64 false)

/-- The machine right after reset (R45, R241), with the default font (R243, log 2)
and the empty ROM (R242: "`len = 0` is legal"). The two
counters start at 0: DESIGN CHOICE (log 6). -/
def State.reset : State where
  V := Vector.replicate 16 0#8
  I := 0#16
  pc := 0x200#16
  stack := []
  fb := FrameBuffer.blank
  DT := 0#8
  ST := 0#8
  keyDown := none
  keyReleased := none
  tone := false
  halt := none
  phase := .sample
  mem := []
  frame := 0
  randoms := 0

end Sys2Proof.Machine
end

