-- ==== Sys2Proof/Machine/Ops.lean ====
section
/-! DEFINITION. The named operations over the state: memory (spec/20_memory.md), registers, program
counter and call stack (spec/10_state.md), the frame buffer, taking a fault (spec/60_exceptions.md
R203), fetching (spec/30_encoding.md R71), and loading a ROM (spec/70_reset_and_hazards.md R241). -/

namespace Sys2Proof.Machine

/-- What a step and a meaning answer. -/
abbrev Result := Host.Outcome State Fault Refusal

/-! ## Memory -/

/-- What an address that is not listed reads as: the default font (R243) at 0..79, `MEM_FILL` elsewhere
(R45, R51). A machine with another font lists the bytes in which it differs (`Memory.load`). -/
def Memory.resetByte (a : Nat) : Byte := (Config.font[a]?).getD Config.memFill

/-- The byte at an address (R11: `mem[a]`). R11 makes no read outside 0..4095; there this total
function answers what an unlisted address reads as (log 11). -/
def Memory.read : Memory → Nat → Byte
  | [], a => Memory.resetByte a
  | (k, b) :: rest, a => if a = k then b else Memory.read rest a

/-- List `b` at `a`, keeping the addresses rising. -/
def Memory.insert (a : Nat) (b : Byte) : Memory → Memory
  | [] => [(a, b)]
  | (k, c) :: rest =>
    if a < k then (a, b) :: (k, c) :: rest
    else if a = k then (a, b) :: rest
    else (k, c) :: Memory.insert a b rest

/-- Remove the entry at `a`, so that it reads as at reset. -/
def Memory.erase (a : Nat) : Memory → Memory
  | [] => []
  | (k, c) :: rest => if a = k then rest else (k, c) :: Memory.erase a rest

/-- Store one byte (R11: `mem[a] <- v`), keeping the canonical form. R11 makes no write outside
0..4095; there this total function changes nothing (log 11). -/
def Memory.write (m : Memory) (a : Nat) (b : Byte) : Memory :=
  if a < 4096 then
    if b = Memory.resetByte a then Memory.erase a m else Memory.insert a b m
  else m

/-- Store bytes at rising addresses from `base` (R55: one byte access per byte, in ascending address
order). -/
def Memory.storeBytes (m : Memory) (base : Nat) : List Byte → Memory
  | [] => m
  | b :: rest => Memory.storeBytes (Memory.write m base b) (base + 1) rest

/-- The canonical form: addresses strictly rising and below 4096, no entry equal to what the address
reads as when it is not listed. -/
abbrev Memory.wf (m : Memory) : Prop :=
  (m.map (·.1)).Pairwise (· < ·) ∧ ∀ c ∈ m, c.1 < 4096 ∧ c.2 ≠ Memory.resetByte c.1

/-! ## Registers, program counter, call stack -/

/-- `V[r]` (R10). -/
def State.v (s : State) (r : Reg) : Byte := s.V[r.val]

/-- `V[r] <- b` (R10). -/
def State.setV (s : State) (r : Reg) (b : Byte) : State := { s with V := s.V.set r.val b }

/-- `pc <- pc + 2`: the fetch's increment (R71), and a skip (R26). -/
def State.advance (s : State) : State := { s with pc := s.pc + 2#16 }

/-- Skip the next instruction when the condition holds (R16: "adding 2 to `pc` a second time"). -/
def State.skipIf (s : State) (c : Bool) : State := if c then s.advance else s

/-- `push(v)` (R10, R29). -/
def State.push (s : State) (v : Word) : State := { s with stack := s.stack ++ [v] }

/-- `depth`, the number of saved return addresses (R29). -/
def State.depth (s : State) : Nat := s.stack.length

/-! ## Frame buffer -/

/-- The pixel in row `r`, column `c` (R10: `fb[r][c]`); off the screen there is none and this total
function answers `false`. -/
def FrameBuffer.get (fb : FrameBuffer) (r c : Nat) : Bool :=
  if h : r < 32 ∧ c < 64 then fb[r][c] else false

/-- Set the pixel in row `r`, column `c`; off the screen there is none to set. -/
def FrameBuffer.put (fb : FrameBuffer) (r c : Nat) (b : Bool) : FrameBuffer :=
  if h : r < 32 ∧ c < 64 then fb.set r (fb[r].set c b) else fb

/-! ## Faults -/

/-- Taking a fault (R203): `halt <- Fault(code, A, info)` and nothing else. `s` is the state before
the step's fetch, so `s.pc` is `A`, the address of the faulting instruction. There is no handler and
no return from a fault (R205). -/
def State.raise (s : State) (cause : Fault) : State := { s with halt := some (.fault cause s.pc) }

/-- The cause codes of R201. -/
def Fault.code : Fault → Nat
  | .fetchOutOfRange _ => 1
  | .memOutOfRange _ => 2
  | .stackOverflow => 3
  | .stackUnderflow => 4

/-- The information R201 records with a fault. -/
def Fault.info : Fault → Option Nat
  | .fetchOutOfRange pc => some pc
  | .memOutOfRange a => some a
  | .stackOverflow => none
  | .stackUnderflow => none

/-- Whether `len` bytes from `base` reach past address 4095, on unbounded integers (R56, R146). No
byte at all is always in range (R162: `rows >= 1 and ...`). -/
def pastEnd (base len : Nat) : Bool := decide (1 ≤ len ∧ base + len - 1 > 4095)

/-- The range check of the instructions that access memory (R56): made before the first byte moves,
over the whole range; out of range it raises `MemOutOfRange` with the highest address. -/
def checkRange (s : State) (base len : Nat) (t : State) : Result :=
  if pastEnd base len then .next (s.raise (.memOutOfRange (base + len - 1))) else .next t

/-! ## Fetch -/

/-- The two bytes of the instruction at `pc`, or `none` where the fetch is out of range (R53, R71). -/
def State.fetch (s : State) : Option (List Byte) :=
  if s.pc.toNat > 4094 then none
  else some [s.mem.read s.pc.toNat, s.mem.read (s.pc.toNat + 1)]

/-- A fetch past the end of memory (R53): the fault is raised before anything is read, and `pc` is
not incremented. -/
def fetchFault (s : State) : Result := .next (s.raise (.fetchOutOfRange s.pc.toNat))

/-- A decode miss is a no-operation (R83): the fetch's increment of `pc` and nothing else. -/
def decodeMiss (s : State) : Result := .next s.advance

/-! ## Loading -/

/-- The memory of R241: `FONT` copied to address 0 and the ROM to 0x200, the rest `MEM_FILL`. -/
def Memory.load (font : Vector Byte 80) (rom : List Byte) : Memory :=
  (State.reset.mem.storeBytes 0 font.toList).storeBytes Config.progBase rom

/-- `Reset(FONT, ROM)` (R241): the machine constructed with any font (R7) and a ROM, or the refusal of a
ROM that is too long (R242). -/
def State.construct (font : Vector Byte 80) (rom : List Byte) : Result :=
  if rom.length ≤ Config.romMax then .next { State.reset with mem := Memory.load font rom }
  else .refused (.romTooLong rom.length)

/-- The machine constructed with the default font (R243) and a ROM. -/
def State.withRom (rom : List Byte) : Result := State.construct Config.defaultFont rom

/-- A state whose very next step fetches the given bytes (log 9): inside a burst (the position is kept
where it is one, else the last instruction step of a burst), not halted, `pc` kept where a fetch is
legal, else the reset address. -/
def State.placeInstruction (s : State) (bytes : List Byte) : State :=
  let pc : Word := if s.pc.toNat > 4094 then 0x200#16 else s.pc
  let phase : Phase := match s.phase with
    | .burst more => .burst more
    | .sample => .burst 0
    | .countdown => .burst 0
    | .soundBefore => .burst 0
    | .soundAfter => .burst 0
    | .render => .burst 0
    | .clear => .burst 0
  { s with pc := pc, phase := phase, halt := none, mem := s.mem.storeBytes pc.toNat bytes }

end Sys2Proof.Machine
end

