-- ==== Sys2Proof/Machine/Flags.lean ====
section
/-! DEFINITION. The flag computations (spec/10_state.md R23) and the order of result and flag (R24):
operands read first, the result written to `V[x]`, `VF` written last. -/

namespace Sys2Proof.Machine

/-- A flag is 0 or 1 in `VF` (R23). -/
def flagByte (c : Bool) : Byte := if c then 1#8 else 0#8

/-- Carry out of bit 7, from the sum before truncation (R126). -/
def carry (a b : Byte) : Bool := decide (a.toNat + b.toNat > 255)

/-- No borrow in `a - b` (R127: "VF=1 means 'no borrow occurred'"). -/
def noBorrow (a b : Byte) : Bool := decide (a.toNat ≥ b.toNat)

/-- The bit a right shift drops (R128). -/
def lowBit (b : Byte) : Bool := b.getLsbD 0

/-- The bit a left shift drops (R130). -/
def highBit (b : Byte) : Bool := b.getLsbD 7

/-- `VF <- flag`. -/
def State.setFlag (s : State) (flag : Bool) : State := s.setV vf (flagByte flag)

/-- `V[x] <- result`, then `VF <- flag` (R24). -/
def State.setResult (s : State) (x : Reg) (result : Byte) (flag : Bool) : State :=
  (s.setV x result).setFlag flag

end Sys2Proof.Machine
end

