-- ==== Sys2Proof/Machine/Operands.lean ====
section
/-! DEFINITION. The operand forms: the byte ranges of the one addressing mode, "base `I` plus a small
constant offset" (spec/42_index_memory.md), decimal digits, glyph addresses, sprite geometry
(spec/43_display.md R161), and the key comparison (spec/44_keypad_timers.md R170). -/

namespace Sys2Proof.Machine

/-- `V[0], ..., V[x]`, the bytes Fx55 stores (R144: "inclusive range"). -/
def State.regsUpTo (s : State) (x : Reg) : List Byte := s.V.toList.take (x.val + 1)

/-- `V[i] <- mem[base + i]` for `i` in `0 .. x`, ascending (R145). -/
def loadUpTo (m : Memory) (base : Nat) (x : Reg) (V : Vector Byte 16) : Vector Byte 16 :=
  (List.range (x.val + 1)).foldl (fun V i => V.setIfInBounds i (m.read (base + i))) V

/-- Hundreds, tens and ones of a byte (R143). -/
def decimalDigits (v : Byte) : List Byte :=
  [BitVec.ofNat 8 (v.toNat / 100), BitVec.ofNat 8 (v.toNat / 10 % 10), BitVec.ofNat 8 (v.toNat % 10)]

/-- The address of the glyph of the low nibble of a byte (R142: `5 * (V[x] & 0x0F)`). -/
def glyphAddress (v : Byte) : Word := 5#16 * (v &&& 0x0F#8).setWidth 16

/-- The column of a sprite's origin (R161: `V[x] mod 64`). -/
def State.spriteColumn (s : State) (x : Reg) : Nat := (s.v x).toNat % 64

/-- The row of a sprite's origin (R161: `V[y] mod 32`). -/
def State.spriteRow (s : State) (y : Reg) : Nat := (s.v y).toNat % 32

/-- The rows of an `n`-row sprite that are on the screen (R162: `min(n, 32 - y0)`). -/
def visibleRows (n y0 : Nat) : Nat := min n (32 - y0)

/-- Draw one sprite bit equal to 1 at row `r`, column `c`: collide if the pixel is on, then flip it
(R162). The accumulator is the frame buffer and `hit`. -/
def flipPixel (acc : FrameBuffer × Bool) (r c : Nat) : FrameBuffer × Bool :=
  (acc.1.put r c (!acc.1.get r c), acc.2 || acc.1.get r c)

/-- Draw one sprite row, the byte `b`, at row `r` from column `x0`: bit `7 - c` is the pixel at column
offset `c`, and columns past 63 are dropped (R161, R162). -/
def drawRow (b : Byte) (r x0 : Nat) (acc : FrameBuffer × Bool) : FrameBuffer × Bool :=
  (List.range 8).foldl
    (fun acc c => if decide (x0 + c ≤ 63) && b.getLsbD (7 - c) then flipPixel acc r (x0 + c) else acc) acc

/-- Draw `rows` sprite rows from memory at `base`, ascending (R162). -/
def drawRows (m : Memory) (base x0 y0 rows : Nat) (fb : FrameBuffer) : FrameBuffer × Bool :=
  (List.range rows).foldl (fun acc r => drawRow (m.read (base + r)) (y0 + r) x0 acc) (fb, false)

/-- Whether the key held down is the one the register names, all 8 bits compared (R170). -/
def State.keyMatches (s : State) (x : Reg) : Bool :=
  match s.keyDown with
  | some k => decide (k.val = (s.v x).toNat)
  | none => false

/-- The key Fx0A latches: the key that is down and has been released this frame (R173). -/
def State.latchedKey (s : State) : Option Key :=
  if s.keyDown = s.keyReleased then s.keyDown else none

end Sys2Proof.Machine
end

