-- ==== Sys2Proof/Machine/Alu.lean ====
section
/-! DEFINITION. Register load, arithmetic, logic, shifts and random (spec/41_alu.md). Each ends with
`pc = A + 2` (`State.advance`) and none can fault. -/

namespace Sys2Proof.Machine

/-- 6xnn (R120). -/
def execLdImm (x : Reg) (nn : Byte) (s : State) : Result := .next (s.advance.setV x nn)

/-- 7xnn (R121): modulo 256, no flag. -/
def execAddImm (x : Reg) (nn : Byte) (s : State) : Result := .next (s.advance.setV x (s.v x + nn))

/-- 8xy0 (R122). -/
def execLdReg (x y : Reg) (s : State) : Result := .next (s.advance.setV x (s.v y))

/-- 8xy1 (R123): no flag. -/
def execOrReg (x y : Reg) (s : State) : Result := .next (s.advance.setV x (s.v x ||| s.v y))

/-- 8xy2 (R124): no flag. -/
def execAndReg (x y : Reg) (s : State) : Result := .next (s.advance.setV x (s.v x &&& s.v y))

/-- 8xy3 (R125): no flag. -/
def execXorReg (x y : Reg) (s : State) : Result := .next (s.advance.setV x (s.v x ^^^ s.v y))

/-- 8xy4 (R126): VF is the carry. -/
def execAddReg (x y : Reg) (s : State) : Result :=
  .next (s.advance.setResult x (s.v x + s.v y) (carry (s.v x) (s.v y)))

/-- 8xy5 (R127): VF is 1 when there is no borrow. -/
def execSubReg (x y : Reg) (s : State) : Result :=
  .next (s.advance.setResult x (s.v x - s.v y) (noBorrow (s.v x) (s.v y)))

/-- 8xy6 (R128): `V[y]` shifted right into `V[x]`, VF the bit shifted out. -/
def execShr (x y : Reg) (s : State) : Result :=
  .next (s.advance.setResult x (s.v y >>> 1) (lowBit (s.v y)))

/-- 8xy7 (R129): `V[y] - V[x]` into `V[x]`, VF is 1 when there is no borrow. -/
def execSubnReg (x y : Reg) (s : State) : Result :=
  .next (s.advance.setResult x (s.v y - s.v x) (noBorrow (s.v y) (s.v x)))

/-- 8xyE (R130): `V[y]` shifted left into `V[x]`, VF the bit shifted out. -/
def execShl (x y : Reg) (s : State) : Result :=
  .next (s.advance.setResult x (s.v y <<< 1) (highBit (s.v y)))

/-- Cxnn (R132): the host's byte `r`, a free value (log 3), masked with `nn`; the counter moves so that
the next execution takes a fresh one. -/
def execRnd (x : Reg) (nn : Byte) (s : State) : Result :=
  .next { s.advance.setV x (Config.randomByte s.randoms &&& nn) with randoms := s.randoms + 1 }

end Sys2Proof.Machine
end

