-- ==== Sys2Proof/Machine/Control.lean ====
section
/-! DEFINITION. Control transfer (spec/40_control.md): return, jump, call, the four register skips,
jump with offset. A meaning is applied to the state before the step's fetch (log 8): `s.pc` is the
instruction's own address `A`, and `s.advance` is the state the spec's pseudocode starts from. -/

namespace Sys2Proof.Machine

/-- 00EE (R100): `pc <- pop()`, or `StackUnderflow`. -/
def execRet (s : State) : Result :=
  match s.stack.getLast? with
  | none => .next (s.raise .stackUnderflow)
  | some v => .next { s with pc := v, stack := s.stack.dropLast }

/-- 1nnn (R101): `pc <- nnn`. -/
def execJp (nnn : Word) (s : State) : Result := .next { s with pc := nnn }

/-- 2nnn (R102): push the address of the next instruction, `pc <- nnn`, or `StackOverflow`. -/
def execCall (nnn : Word) (s : State) : Result :=
  if s.depth ≥ 16 then .next (s.raise .stackOverflow)
  else .next { s.push s.advance.pc with pc := nnn }

/-- 3xnn (R103): skip if `V[x] = nn`. -/
def execSeImm (x : Reg) (nn : Byte) (s : State) : Result :=
  .next (s.advance.skipIf (decide (s.v x = nn)))

/-- 4xnn (R104): skip if `V[x] != nn`. -/
def execSneImm (x : Reg) (nn : Byte) (s : State) : Result :=
  .next (s.advance.skipIf (decide (s.v x ≠ nn)))

/-- 5xy0 (R105): skip if `V[x] = V[y]`. -/
def execSeReg (x y : Reg) (s : State) : Result :=
  .next (s.advance.skipIf (decide (s.v x = s.v y)))

/-- 9xy0 (R106): skip if `V[x] != V[y]`. -/
def execSneReg (x y : Reg) (s : State) : Result :=
  .next (s.advance.skipIf (decide (s.v x ≠ s.v y)))

/-- Bnnn (R107): `pc <- nnn + V[0]`, not reduced. -/
def execJpV0 (nnn : Word) (s : State) : Result :=
  .next { s with pc := nnn + (s.v 0).setWidth 16 }

end Sys2Proof.Machine
end

