-- ==== Sys2Proof/Machine/Display.lean ====
section
/-! DEFINITION. Clear screen and sprite draw (spec/43_display.md). -/

namespace Sys2Proof.Machine

/-- 00E0 (R160): every pixel off; VF unchanged. -/
def execCls (s : State) : Result := .next { s.advance with fb := FrameBuffer.blank }

/-- Dxyn (R161, R162): the operands are read before VF is touched, only rows on the screen are read
and range-checked, VF is the collision flag, written last. -/
def execDrw (x y : Reg) (n : Nat) (s : State) : Result :=
  let rows := visibleRows n (s.spriteRow y)
  let drawn := drawRows s.mem s.I.toNat (s.spriteColumn x) (s.spriteRow y) rows s.fb
  checkRange s s.I.toNat rows ({ s.advance with fb := drawn.1 }.setFlag drawn.2)

end Sys2Proof.Machine
end

