-- ==== Sys2Proof/Machine/Index.lean ====
section
/-! DEFINITION. Address register, font lookup, decimal store, register dump and load
(spec/42_index_memory.md). None writes VF as a flag. -/

namespace Sys2Proof.Machine

/-- Annn (R140). -/
def execLdI (nnn : Word) (s : State) : Result := .next { s.advance with I := nnn }

/-- Fx1E (R141): modulo 65536, no flag, no range check. -/
def execAddI (x : Reg) (s : State) : Result := .next { s.advance with I := s.I + (s.v x).setWidth 16 }

/-- Fx29 (R142). -/
def execLdF (x : Reg) (s : State) : Result := .next { s.advance with I := glyphAddress (s.v x) }

/-- Fx33 (R143, R146): three decimal digits at `I`, `I + 1`, `I + 2`. -/
def execLdB (x : Reg) (s : State) : Result :=
  checkRange s s.I.toNat 3
    { s.advance with mem := s.mem.storeBytes s.I.toNat (decimalDigits (s.v x)) }

/-- Fx55 (R144, R146): `V[0..x]` to memory at `I`; `I` is unchanged. -/
def execStoreRegs (x : Reg) (s : State) : Result :=
  checkRange s s.I.toNat (x.val + 1)
    { s.advance with mem := s.mem.storeBytes s.I.toNat (s.regsUpTo x) }

/-- Fx65 (R145, R146): memory at `I` to `V[0..x]`; `I` is unchanged. -/
def execLoadRegs (x : Reg) (s : State) : Result :=
  checkRange s s.I.toNat (x.val + 1) { s.advance with V := loadUpTo s.mem s.I.toNat x s.V }

end Sys2Proof.Machine
end

