-- ==== Sys2Proof/Machine/Keypad.lean ====
section
/-! DEFINITION. Keypad skips, key wait, timer read and set (spec/44_keypad_timers.md). None writes VF
as a flag and none can fault; none writes the key snapshot (R34) or `tone` (R35). -/

namespace Sys2Proof.Machine

/-- Ex9E (R170): skip if the key `V[x]` is down. -/
def execSkp (x : Reg) (s : State) : Result := .next (s.advance.skipIf (s.keyMatches x))

/-- ExA1 (R171): the complement of Ex9E. -/
def execSknp (x : Reg) (s : State) : Result := .next (s.advance.skipIf (!s.keyMatches x))

/-- Fx07 (R172). -/
def execLdVxDt (x : Reg) (s : State) : Result := .next (s.advance.setV x s.DT)

/-- Fx0A (R173): latch the key that is down and released this frame; in the other two arms of the rule
wait, `pc` being rewound to the instruction itself, so that the step changes nothing. -/
def execLdVxK (x : Reg) (s : State) : Result :=
  match s.latchedKey with
  | some k => .next (s.advance.setV x (BitVec.ofNat 8 k.val))
  | none => .next { s.advance with pc := s.advance.pc - 2#16 }

/-- Fx15 (R174). -/
def execLdDtVx (x : Reg) (s : State) : Result := .next { s.advance with DT := s.v x }

/-- Fx18 (R175): `tone` follows at the next evaluation point, not here. -/
def execLdStVx (x : Reg) (s : State) : Result := .next { s.advance with ST := s.v x }

end Sys2Proof.Machine
end

