-- ==== Sys2Proof/Machine/Sequencer.lean ====
section
/-! DEFINITION. The frame sequencer (spec/60_exceptions.md R210 to R217): the work of each of the
seven steps of a frame (R211). `Machine.step` performs the step the position names. -/

namespace Sys2Proof.Machine

/-- Step 1 (R212): the snapshot is written from the host's two answers, free values (log 4). -/
def sampleKeys (s : State) : State :=
  { s with
    keyDown := Config.hostKeyDown s.frame
    keyReleased := Config.hostKeyReleased s.frame
    phase := .countdown }

/-- One tick of a timer: down by 1, never below 0 (R213). -/
def tick (t : Byte) : Byte := if t.toNat > 0 then t - 1#8 else t

/-- Step 2 (R213): each timer above 0 goes down by exactly 1. -/
def countDown (s : State) : State := { s with DT := tick s.DT, ST := tick s.ST, phase := .soundBefore }

/-- Sound evaluation (R214): `tone <- (ST > 0)`. -/
def State.evalTone (s : State) : State := { s with tone := decide (s.ST.toNat > 0) }

/-- Step 3 (R214); step 4 comes next, `BURST` instruction steps (R215). -/
def soundBefore (s : State) : State := { s.evalTone with phase := .burst Config.burstMore }

/-- The position after an instruction step that `more` others follow (R215). -/
def Phase.afterInstr : Nat → Phase
  | 0 => .soundAfter
  | more + 1 => .burst more

/-- The end of one instruction step of the burst: the position moves on, unless the step halted the
machine; a fault changes nothing but `halt` (R203, R204). -/
def endInstr (more : Nat) : Result → Result
  | .next t => if t.halt.isSome then .next t else .next { t with phase := .afterInstr more }
  | .fault f => .fault f
  | .refused r => .refused r

/-- Step 5 (R214). -/
def soundAfter (s : State) : State := { s.evalTone with phase := .render }

/-- Step 6 (R216, R229): the host reads `fb`, which changes nothing; if it asserts `stop`, a free value
(log 5), `halt <- Stopped` and nothing else. -/
def renderFrame (s : State) : State :=
  if Config.hostStop s.frame then { s with halt := some .stopped } else { s with phase := .clear }

/-- Step 7 (R217): the snapshot is cleared; the next frame begins. -/
def clearKeys (s : State) : State :=
  { s with keyDown := none, keyReleased := none, phase := .sample, frame := s.frame + 1 }

end Sys2Proof.Machine
end

