-- ==== Sys2Proof/Machine/Step.lean ====
section
/-! DEFINITION. One step of the machine: nothing once it is halted (spec/60_exceptions.md R204), else
the step of the frame cycle that the position names (R211); inside the burst, one fetch, decode and
execute (spec/30_encoding.md R70). -/

namespace Sys2Proof.Machine

/-- One instruction step (R70): fetch (R71), dispatch (R76 to R79), execute, or nothing on a decode
miss (R83). -/
def instrStep (s : State) : Host.Outcome State Fault Refusal :=
  match s.fetch with
  | none => fetchFault s
  | some bytes =>
    match (decode bytes).1 with
    | .instr i => exec i s
    | .miss _ => decodeMiss s

/-- One step of the machine (R204, R211, R219 b). -/
def step (s : State) : Host.Outcome State Fault Refusal :=
  match s.halt with
  | some _ => .next s
  | none =>
    match s.phase with
    | .sample => .next (sampleKeys s)
    | .countdown => .next (countDown s)
    | .soundBefore => .next (soundBefore s)
    | .burst more => endInstr more (instrStep s)
    | .soundAfter => .next (soundAfter s)
    | .render => .next (renderFrame s)
    | .clear => .next (clearKeys s)

/-- `s` with the instruction whose table bits are `w` placed where the very next step fetches (log 9). -/
def State.withFetchWord (s : State) (nbits w : Nat) : State := s.placeInstruction (tableBytes nbits w)

end Sys2Proof.Machine
end

