-- ==== Sys2Proof/Safety.lean ====
section
/-! DEFINITION. The terms claims are stated in: how a run stands (spec/70_reset_and_hazards.md R257),
which faults an instruction raises (spec/60_exceptions.md R201), the invariant of the machine, where a
sprite lands (spec/43_display.md R161), and one whole frame as a transition (R211, R219 a). -/

namespace Sys2Proof.Machine

/-! ## How a run stands -/

/-- The instruction word at `pc` (R52). -/
def State.word (s : State) : Word :=
  wordOfBytes (s.mem.read s.pc.toNat) (s.mem.read (s.pc.toNat + 1))

/-- The next instruction step of `s` executes `i`. -/
def State.executes (s : State) (i : Instr) : Prop := s.pc.toNat ≤ 4094 ∧ decodeWord s.word = .instr i

/-- A FINISHED program (R257): not halted, and the word at `pc` is a jump to itself. -/
def State.finished (s : State) : Prop := s.halt = none ∧ s.executes (.jp s.pc)

/-- Fx0A waits (R173): there is no key that is both down and the one released this frame. -/
def State.waitsForKey (s : State) : Prop := ¬∃ k, s.keyDown = some k ∧ s.keyReleased = some k

/-- A program WAITING for a key (R257). -/
def State.waiting (s : State) : Prop := s.halt = none ∧ s.waitsForKey ∧ ∃ x, s.executes (.ldVxK x)

/-- A FAILED run (R257). -/
def State.failed (s : State) : Prop := ∃ c a, s.halt = some (.fault c a)

/-! ## What an instruction changes -/

/-- Every byte of memory reads alike. -/
def SameMemory (s t : State) : Prop := ∀ a, t.mem.read a = s.mem.read a

/-- `t` differs from `s` at most in `pc` and in the registers named by `written`: every other register,
`I`, the stack, `fb`, the timers, the snapshot, `tone`, `halt`, the position and every byte of memory
are as in `s`. -/
def OnlyRegisters (written : Reg → Prop) (s t : State) : Prop :=
  t = { s with pc := t.pc, V := t.V } ∧ (∀ r, ¬written r → t.v r = s.v r) ∧ SameMemory s t

/-- `t` differs from `s` at most in `pc`. -/
def OnlyPc (s t : State) : Prop := t = { s with pc := t.pc } ∧ SameMemory s t

/-- Every word with these fixed bits under this mask decodes to the instruction `f` makes of it: one row
of the opcode map (R80). -/
def DecodesOn (mask fixed : Word) (f : Word → Instr) : Prop :=
  ∀ w : Word, w &&& mask = fixed → decodeWord w = .instr (f w)

/-! ## Faults -/

/-- The fault condition of each instruction (R201): 00EE on an empty stack, 2nnn on a full one, and the
four instructions that access memory when the highest address they would touch exceeds 4095. No other
instruction has one. `depth` never exceeds 16 (R29). -/
def faultOf (i : Instr) (s : State) : Option Fault :=
  match i with
  | .ret => if s.stack = [] then some .stackUnderflow else none
  | .call _ => if s.stack.length ≥ 16 then some .stackOverflow else none
  | .drw _ y n =>
    let rows := min n (32 - (s.v y).toNat % 32)
    if rows ≥ 1 ∧ s.I.toNat + rows - 1 > 4095 then some (.memOutOfRange (s.I.toNat + rows - 1)) else none
  | .ldB _ => if s.I.toNat + 2 > 4095 then some (.memOutOfRange (s.I.toNat + 2)) else none
  | .storeRegs x =>
    if s.I.toNat + x.val > 4095 then some (.memOutOfRange (s.I.toNat + x.val)) else none
  | .loadRegs x =>
    if s.I.toNat + x.val > 4095 then some (.memOutOfRange (s.I.toNat + x.val)) else none
  | _ => none

/-! ## The invariant -/

/-- What holds of a state whose `halt` records this fault (R201, R203). -/
def State.faultStands (s : State) : Fault → Prop
  | .fetchOutOfRange p => p = s.pc.toNat ∧ 4094 < p
  | .memOutOfRange a => 4095 < a
  | .stackOverflow => s.stack.length = 16
  | .stackUnderflow => s.stack = []

/-- The invariant of the machine: memory in canonical form; at most 16 saved return addresses, none
above 4096 (R27, R29); `pc` at most 0x10FE (R27); the position inside its burst (R215); a fault
recorded at the instruction's own address, in the burst, under its condition (R201, R203); a stop
only at step 6 (R229). -/
structure State.Inv (s : State) : Prop where
  mem : Memory.wf s.mem
  depth : s.stack.length ≤ 16
  saved : ∀ v ∈ s.stack, v.toNat ≤ 4096
  pc : s.pc.toNat ≤ 0x10FE
  burst : ∀ more, s.phase = .burst more → more < Config.burst
  fault : ∀ c a, s.halt = some (.fault c a) → a = s.pc ∧ s.faultStands c ∧ ∃ more, s.phase = .burst more
  stopped : s.halt = some .stopped → s.phase = .render

/-! ## Sprites -/

/-- Whether sprite data puts a 1 on pixel (`r`, `c`): the sprite of `rows` rows at memory `base` with
its origin in column `x0`, row `y0`, clipped at the right and bottom edges (R161). -/
def spriteCovers (m : Memory) (base x0 y0 rows r c : Nat) : Prop :=
  y0 ≤ r ∧ r < y0 + rows ∧ r ≤ 31 ∧ x0 ≤ c ∧ c < x0 + 8 ∧ c ≤ 63 ∧
    (m.read (base + (r - y0))).getLsbD (7 - (c - x0)) = true

/-- Whether Dxyn in state `s` draws a 1 on pixel (`r`, `c`): the sprite of `n` rows at `I` with its
origin at `(V[x] mod 64, V[y] mod 32)` (R161). -/
def State.draws (s : State) (x y : Reg) (n r c : Nat) : Prop :=
  spriteCovers s.mem s.I.toNat ((s.v x).toNat % 64) ((s.v y).toNat % 32) n r c

/-! ## One frame as a transition -/

/-- One instruction step, as a state. -/
def instrState (s : State) : State :=
  match instrStep s with
  | .next t => t
  | .fault _ => s
  | .refused _ => s

/-- Step 4 of R211: `k` instruction steps, ended by a halt. -/
def burstState : Nat → State → State
  | 0, s => s
  | k + 1, s => let t := instrState s; if t.halt.isSome then t else burstState k t

/-- R211, `Frame(kd, kr, stop)`, line by line; the model's counter of frames moves at its end. -/
def frameState (kd kr : Option Key) (stop : Bool) (s : State) : State :=
  if s.halt.isSome then s
  else
    let s1 := { s with keyDown := kd, keyReleased := kr }
    let s2 := { s1 with
      DT := if s1.DT.toNat > 0 then s1.DT - 1#8 else s1.DT
      ST := if s1.ST.toNat > 0 then s1.ST - 1#8 else s1.ST }
    let s3 := { s2 with tone := decide (s2.ST.toNat > 0) }
    let s4 := burstState Config.burst s3
    if s4.halt.isSome then s4
    else
      let s5 := { s4 with tone := decide (s4.ST.toNat > 0) }
      if stop then { s5 with halt := some .stopped }
      else { s5 with keyDown := none, keyReleased := none, frame := s5.frame + 1 }

end Sys2Proof.Machine
end

