-- ==== Sys2Proof/Certificates/Slice0/Obligations.lean ====
section
/-! DEFINITION. The statements for the provers: what the instructions, the frame sequencer and the
machine do, from the numbered rules of spec/. A docstring names the rule, and the spec's own decision
(`D<n>`, spec/92_eei_decisions.md) or the row of the assumption log where a clause rests on one. -/

open Sys2Proof Sys2Proof.Machine

/-! ## Decoding and encoding -/

/-- R80, R73, R52: words written out from the opcode map decode to the instructions they stand for, at
least one per family, with the byte at the lower address the more significant (D1). -/
def Obligations.SampleWordsDecode : Prop :=
  decode [0x00#8, 0xEE#8] = (.instr .ret, []) ∧
  decode [0x12#8, 0x34#8] = (.instr (.jp 0x234#16), []) ∧
  decode [0x33#8, 0x2A#8] = (.instr (.seImm 3 0x2A#8), []) ∧
  decode [0x8A#8, 0xB6#8] = (.instr (.shr 0xA 0xB), []) ∧
  decode [0xA2#8, 0xF0#8] = (.instr (.ldI 0x2F0#16), []) ∧
  decode [0xF2#8, 0x33#8, 0xC3#8, 0x0F#8] = (.instr (.ldB 2), [0xC3#8, 0x0F#8]) ∧
  decode [0xD1#8, 0x2F#8] = (.instr (.drw 1 2 15), []) ∧
  decode [0xE1#8, 0x9E#8] = (.instr (.skp 1), []) ∧
  decode [0xF3#8, 0x0A#8] = (.instr (.ldVxK 3), []) ∧
  decode [0xF0#8, 0x1F#8] = (.miss (.miscKey 0x1F#8), [])

/-- R80: a word selects the row whose `op & mask = match`, at most one row matches, and a word that no
row matches is a decode miss. The masks of four rows rest on D7. -/
def Obligations.DecoderFollowsOpcodeMap : Prop :=
  (∀ (w : Word) (i : Instr), decodeWord w = .instr i → w &&& i.row.mask = i.row.fixed) ∧
  (∀ (w : Word) (why : DecodeMiss), decodeWord w = .miss why →
    ∀ i : Instr, w &&& i.row.mask ≠ i.row.fixed) ∧
  (∀ (w : Word) (i j : Instr), w &&& i.row.mask = i.row.fixed → w &&& j.row.mask = j.row.fixed →
    i.row = j.row)

/-- R82: the decode misses are exactly the four classes, each named with its key. -/
def Obligations.DecodeMissesAreTheFourClasses : Prop :=
  ∀ (w : Word) (why : DecodeMiss), decodeWord w = .miss why ↔
    (w.topNibble = 0x0#4 ∧ w.nnField ∉ [0xE0#8, 0xEE#8] ∧ why = .zeroKey w.nnField) ∨
    (w.topNibble = 0x8#4 ∧ w.nField ∈ [0x8#4, 0x9#4, 0xA#4, 0xB#4, 0xC#4, 0xD#4, 0xF#4] ∧
      why = .eightKey w.nField) ∨
    (w.topNibble = 0xE#4 ∧ w.nnField ∉ [0x9E#8, 0xA1#8] ∧ why = .keypadKey w.nnField) ∨
    (w.topNibble = 0xF#4 ∧
      w.nnField ∉ [0x07#8, 0x0A#8, 0x15#8, 0x18#8, 0x1E#8, 0x29#8, 0x33#8, 0x55#8, 0x65#8] ∧
      why = .miscKey w.nnField)

/-- R80, R81: decoding the bytes of any well-formed instruction, whatever follows them, gives the
instruction back with every operand, and leaves what follows. -/
def Obligations.DecodeOfEncodeIsIdentity : Prop :=
  ∀ (i : Instr) (rest : List Byte), i.WellFormed → decode (encode i ++ rest) = (.instr i, rest)

/-- R79 (D7), R17: encoding what a word decodes to gives the word back with its don't-care bits zero:
the low nibble under 5 and 9, bits 11..8 under 0; every other bit of the word is kept. -/
def Obligations.EncodeOfDecodeIsCanonicalWord : Prop :=
  ∀ (w : Word) (i : Instr), decodeWord w = .instr i →
    encodeWord i =
      if w.topNibble = 0x5#4 ∨ w.topNibble = 0x9#4 then w &&& 0xFFF0#16
      else if w.topNibble = 0x0#4 then w &&& 0xF0FF#16
      else w

/-! ## The step -/

/-- R70, R71, R215: in a burst, when the word at `pc` decodes to an instruction, the step of the machine
is that instruction's `exec` with the position moved on by one instruction step, or kept if the
instruction halted the machine (R203). -/
def Obligations.BurstStepRunsDecodedInstruction : Prop :=
  ∀ (s : State) (more : Nat) (i : Instr), s.halt = none → s.phase = .burst more → s.executes i →
    i.WellFormed ∧
    step s = endInstr more (exec i s) ∧
    ∀ t, exec i s = .next t →
      step s = .next (if t.halt = none then { t with phase := Phase.afterInstr more } else t)

/-- R83: a decode miss is a no-operation that advances `pc` by 2. The position of the sequencer moves on
as after any instruction step. -/
def Obligations.DecodeMissOnlyAdvancesPc : Prop :=
  ∀ (s : State) (more : Nat) (why : DecodeMiss), s.halt = none → s.phase = .burst more →
    s.pc.toNat ≤ 4094 → decodeWord s.word = .miss why →
    step s = .next { s with pc := s.pc + 2#16, phase := Phase.afterInstr more }

/-- R53, R203 (D3): a fetch with `pc` above 4094 raises `FetchOutOfRange(pc)`; nothing else changes. -/
def Obligations.FetchPastEndRaisesFault : Prop :=
  ∀ (s : State) (more : Nat), s.halt = none → s.phase = .burst more → 4094 < s.pc.toNat →
    step s = .next { s with halt := some (.fault (.fetchOutOfRange s.pc.toNat) s.pc) }

/-- R60 (derived from R52, R58), D22: a register dump onto the very next instruction's address is what
the next fetch reads: no stale copy. -/
def Obligations.NextFetchSeesRegisterDump : Prop :=
  ∀ (s : State) (x : Reg), Memory.wf s.mem → 1 ≤ x.val → s.I = s.pc + 2#16 → s.pc.toNat ≤ 4092 →
    s.I.toNat + x.val ≤ 4095 →
    ∃ t, exec (.storeRegs x) s = .next t ∧ t.halt = s.halt ∧ t.pc = s.I ∧
      t.word = wordOfBytes (s.v 0) (s.v 1)

/-- R201, R203 (D3, D13), R202: every instruction answers a next state; it raises a fault exactly under
the table's condition, with the table's information and the instruction's own address, and then
changes nothing but `halt`; otherwise it leaves `halt` alone. -/
def Obligations.ExecFaultsExactlyAsTabled : Prop :=
  ∀ (i : Instr) (s : State), ∃ t, exec i s = .next t ∧
    match faultOf i s with
    | some c => t = { s with halt := some (.fault c s.pc) }
    | none => t.halt = s.halt

/-- R204 (D3): once `halt` is not `none`, no number of steps changes anything. -/
def Obligations.HaltIsAbsorbing : Prop :=
  ∀ (n : Nat) (s : State), s.halt ≠ none → core.run n s = .next s

/-! ## Control transfer -/

/-- R100 (fault: D3; bits 11..8 not examined: D7). -/
def Obligations.ReturnPopsTheStack : Prop :=
  DecodesOn 0xF0FF#16 0x00EE#16 (fun _ => .ret) ∧
  (∀ (s : State) (rest : List Word) (v : Word), s.stack = rest ++ [v] →
    exec .ret s = .next { s with pc := v, stack := rest }) ∧
  (∀ s : State, s.stack = [] →
    exec .ret s = .next { s with halt := some (.fault .stackUnderflow s.pc) })

/-- R101: `pc <- nnn`, no flag, no fault at the jump; a target above 4094 faults at the next fetch; a
jump to its own address changes nothing. What the fault at the next fetch records: D3, D4, log 7. -/
def Obligations.JumpSetsPc : Prop :=
  DecodesOn 0xF000#16 0x1000#16 (fun w => .jp w.nnnField) ∧
  (∀ (nnn : Word) (s : State), exec (.jp nnn) s = .next { s with pc := nnn }) ∧
  (∀ (nnn : Word) (s t : State), exec (.jp nnn) s = .next t → 4094 < nnn.toNat →
    instrStep t = .next { t with halt := some (.fault (.fetchOutOfRange nnn.toNat) nnn) }) ∧
  (∀ s : State, exec (.jp s.pc) s = .next s)

/-- R102 (fault: D3): the address of the next instruction is pushed and `pc <- nnn`; with sixteen entries
saved it faults. `depth` never exceeds 16 (R29). -/
def Obligations.CallPushesReturnAddress : Prop :=
  DecodesOn 0xF000#16 0x2000#16 (fun w => .call w.nnnField) ∧
  (∀ (nnn : Word) (s : State), s.stack.length < 16 →
    exec (.call nnn) s = .next { s with pc := nnn, stack := s.stack ++ [s.pc + 2#16] }) ∧
  (∀ (nnn : Word) (s : State), s.stack.length = 16 →
    exec (.call nnn) s = .next { s with halt := some (.fault .stackOverflow s.pc) })

/-- R103, R104: the two skips on an immediate. `pc` ends at A + 4 or A + 2; nothing else changes, the
skipped word is not looked at, and nothing faults; where `pc` ends above 4094 the next fetch does. What
that fault records: D3, D4, log 7. -/
def Obligations.SkipsOnImmediate : Prop :=
  DecodesOn 0xF000#16 0x3000#16 (fun w => .seImm w.xField w.nnField) ∧
  DecodesOn 0xF000#16 0x4000#16 (fun w => .sneImm w.xField w.nnField) ∧
  (∀ (x : Reg) (nn : Byte) (s : State), exec (.seImm x nn) s =
    .next { s with pc := if s.v x = nn then s.pc + 4#16 else s.pc + 2#16 }) ∧
  (∀ (x : Reg) (nn : Byte) (s : State), exec (.sneImm x nn) s =
    .next { s with pc := if s.v x ≠ nn then s.pc + 4#16 else s.pc + 2#16 }) ∧
  (∀ (x : Reg) (nn : Byte) (s t : State),
    exec (.seImm x nn) s = .next t ∨ exec (.sneImm x nn) s = .next t → 4094 < t.pc.toNat →
    instrStep t = .next { t with halt := some (.fault (.fetchOutOfRange t.pc.toNat) t.pc) })

/-- R105, R106 (the low nibble not examined: D7): the two skips on a register pair; with `x = y` 5xy0
always skips and 9xy0 never does. -/
def Obligations.SkipsOnRegisterPair : Prop :=
  DecodesOn 0xF000#16 0x5000#16 (fun w => .seReg w.xField w.yField) ∧
  DecodesOn 0xF000#16 0x9000#16 (fun w => .sneReg w.xField w.yField) ∧
  (∀ (x y : Reg) (s : State), exec (.seReg x y) s =
    .next { s with pc := if s.v x = s.v y then s.pc + 4#16 else s.pc + 2#16 }) ∧
  (∀ (x y : Reg) (s : State), exec (.sneReg x y) s =
    .next { s with pc := if s.v x ≠ s.v y then s.pc + 4#16 else s.pc + 2#16 }) ∧
  (∀ (x : Reg) (s : State), exec (.seReg x x) s = .next { s with pc := s.pc + 4#16 } ∧
    exec (.sneReg x x) s = .next { s with pc := s.pc + 2#16 })

/-- R107: `pc <- nnn + V[0]` with no wrap and no truncation to 12 bits, no flag, no fault at the jump; a
result above 4094 faults at the next fetch. What that fault records: D3, D4, log 7. -/
def Obligations.JumpWithOffsetDoesNotWrap : Prop :=
  DecodesOn 0xF000#16 0xB000#16 (fun w => .jpV0 w.nnnField) ∧
  (∀ (nnn : Word) (s : State), fitsAddress nnn → ∃ t, exec (.jpV0 nnn) s = .next t ∧
    t.pc.toNat = nnn.toNat + (s.v 0).toNat ∧ t = { s with pc := t.pc } ∧
    (4094 < t.pc.toNat →
      instrStep t = .next { t with halt := some (.fault (.fetchOutOfRange t.pc.toNat) t.pc) }))

/-! ## Arithmetic and logic -/

/-- R120, R121: 6xnn loads, 7xnn adds modulo 256; neither writes VF as a flag, every other register and
every byte of memory is kept, `pc` advances by 2. -/
def Obligations.LoadAndAddImmediate : Prop :=
  DecodesOn 0xF000#16 0x6000#16 (fun w => .ldImm w.xField w.nnField) ∧
  DecodesOn 0xF000#16 0x7000#16 (fun w => .addImm w.xField w.nnField) ∧
  (∀ (x : Reg) (nn : Byte) (s : State), ∃ t, exec (.ldImm x nn) s = .next t ∧ t.pc = s.pc + 2#16 ∧
    t.v x = nn ∧ OnlyRegisters (· = x) s t) ∧
  (∀ (x : Reg) (nn : Byte) (s : State), ∃ t, exec (.addImm x nn) s = .next t ∧ t.pc = s.pc + 2#16 ∧
    (t.v x).toNat = ((s.v x).toNat + nn.toNat) % 256 ∧ OnlyRegisters (· = x) s t)

/-- R122 to R125: copy, or, and, exclusive or; VF is not touched unless it is `V[x]`, every other
register and every byte of memory is kept, `pc` advances by 2. -/
def Obligations.CopyAndLogicHaveNoFlag : Prop :=
  DecodesOn 0xF00F#16 0x8000#16 (fun w => .ldReg w.xField w.yField) ∧
  DecodesOn 0xF00F#16 0x8001#16 (fun w => .orReg w.xField w.yField) ∧
  DecodesOn 0xF00F#16 0x8002#16 (fun w => .andReg w.xField w.yField) ∧
  DecodesOn 0xF00F#16 0x8003#16 (fun w => .xorReg w.xField w.yField) ∧
  ∀ (x y : Reg) (s : State),
    (∃ t, exec (.ldReg x y) s = .next t ∧ t.pc = s.pc + 2#16 ∧ t.v x = s.v y ∧
      OnlyRegisters (· = x) s t) ∧
    (∃ t, exec (.orReg x y) s = .next t ∧ t.pc = s.pc + 2#16 ∧ t.v x = s.v x ||| s.v y ∧
      OnlyRegisters (· = x) s t) ∧
    (∃ t, exec (.andReg x y) s = .next t ∧ t.pc = s.pc + 2#16 ∧ t.v x = s.v x &&& s.v y ∧
      OnlyRegisters (· = x) s t) ∧
    (∃ t, exec (.xorReg x y) s = .next t ∧ t.pc = s.pc + 2#16 ∧ t.v x = s.v x ^^^ s.v y ∧
      OnlyRegisters (· = x) s t)

/-- R126, R24 (VF written last: D12): the sum modulo 256 in `V[x]`, VF 1 exactly if the sum exceeds 255;
with `x = 15` VF ends as the carry; with `y = 15` the old VF is the operand. -/
def Obligations.AddSetsCarry : Prop :=
  DecodesOn 0xF00F#16 0x8004#16 (fun w => .addReg w.xField w.yField) ∧
  ∀ (x y : Reg) (s : State), ∃ t, exec (.addReg x y) s = .next t ∧ t.pc = s.pc + 2#16 ∧
    (x ≠ vf → (t.v x).toNat = ((s.v x).toNat + (s.v y).toNat) % 256) ∧
    t.v vf = (if (s.v x).toNat + (s.v y).toNat > 255 then 1#8 else 0#8) ∧
    OnlyRegisters (fun r => r = x ∨ r = vf) s t

/-- R127, R129, R24 (VF written last: D12): the two differences modulo 256 in `V[x]`, VF 1 exactly if
there is no borrow, equal operands included. -/
def Obligations.SubtractSetsNoBorrow : Prop :=
  DecodesOn 0xF00F#16 0x8005#16 (fun w => .subReg w.xField w.yField) ∧
  DecodesOn 0xF00F#16 0x8007#16 (fun w => .subnReg w.xField w.yField) ∧
  ∀ (x y : Reg) (s : State),
    (∃ t, exec (.subReg x y) s = .next t ∧ t.pc = s.pc + 2#16 ∧
      (x ≠ vf → ((t.v x).toNat : Int) = ((s.v x).toNat - (s.v y).toNat : Int) % 256) ∧
      t.v vf = (if (s.v x).toNat ≥ (s.v y).toNat then 1#8 else 0#8) ∧
      OnlyRegisters (fun r => r = x ∨ r = vf) s t) ∧
    (∃ t, exec (.subnReg x y) s = .next t ∧ t.pc = s.pc + 2#16 ∧
      (x ≠ vf → ((t.v x).toNat : Int) = ((s.v y).toNat - (s.v x).toNat : Int) % 256) ∧
      t.v vf = (if (s.v y).toNat ≥ (s.v x).toNat then 1#8 else 0#8) ∧
      OnlyRegisters (fun r => r = x ∨ r = vf) s t)

/-- R128, R130, R24 (VF written last: D12): `V[y]` shifted by one bit into `V[x]`, VF the bit shifted
out. -/
def Obligations.ShiftsMoveVyIntoVx : Prop :=
  DecodesOn 0xF00F#16 0x8006#16 (fun w => .shr w.xField w.yField) ∧
  DecodesOn 0xF00F#16 0x800E#16 (fun w => .shl w.xField w.yField) ∧
  ∀ (x y : Reg) (s : State),
    (∃ t, exec (.shr x y) s = .next t ∧ t.pc = s.pc + 2#16 ∧
      (x ≠ vf → (t.v x).toNat = (s.v y).toNat / 2) ∧
      (t.v vf).toNat = (s.v y).toNat % 2 ∧ OnlyRegisters (fun r => r = x ∨ r = vf) s t) ∧
    (∃ t, exec (.shl x y) s = .next t ∧ t.pc = s.pc + 2#16 ∧
      (x ≠ vf → (t.v x).toNat = (s.v y).toNat * 2 % 256) ∧
      (t.v vf).toNat = (s.v y).toNat / 128 ∧ OnlyRegisters (fun r => r = x ∨ r = vf) s t)

/-- R132, R230 (D19; log 3): the byte the host supplies to this execution, masked with `nn`, in `V[x]`; no
flag. The byte is a free value; the model's counter of random bytes moves by one, so that the next
execution takes another (log 6). `nn = 0` gives 0. -/
def Obligations.RandomIsMaskedByte : Prop :=
  DecodesOn 0xF000#16 0xC000#16 (fun w => .rnd w.xField w.nnField) ∧
  ∀ (x : Reg) (nn : Byte) (s : State), ∃ t, exec (.rnd x nn) s = .next t ∧ t.pc = s.pc + 2#16 ∧
    t.v x = Config.randomByte s.randoms &&& nn ∧ (nn = 0#8 → t.v x = 0#8) ∧
    OnlyRegisters (· = x) s { t with randoms := s.randoms } ∧ t.randoms = s.randoms + 1

/-- R23, R22: outside the six flag-writing instructions, VF changes only in an instruction whose
destination it is; after one of the six that raised no fault, VF is 0 or 1. -/
def Obligations.FlagChangesOnlyAsTabled : Prop :=
  ∀ (i : Instr) (s t : State), exec i s = .next t →
    (t.v vf ≠ s.v vf →
      (∃ x y, i = .addReg x y ∨ i = .subReg x y ∨ i = .subnReg x y ∨ i = .shr x y ∨ i = .shl x y ∨
        ∃ n, i = .drw x y n) ∨
      (∃ nn, i = .ldImm vf nn ∨ i = .addImm vf nn ∨ i = .rnd vf nn) ∨
      (∃ y, i = .ldReg vf y ∨ i = .orReg vf y ∨ i = .andReg vf y ∨ i = .xorReg vf y) ∨
      i = .ldVxDt vf ∨ i = .ldVxK vf ∨ i = .loadRegs vf) ∧
    (s.halt = none → t.halt = none →
      (∃ x y, i = .addReg x y ∨ i = .subReg x y ∨ i = .subnReg x y ∨ i = .shr x y ∨ i = .shl x y ∨
        ∃ n, i = .drw x y n) →
      t.v vf = 0#8 ∨ t.v vf = 1#8)

/-! ## Address register and memory -/

/-- R140, R142: `I` is set to the address or to the glyph of the low nibble; memory is not read and no
flag is written; only `I` and `pc` change. -/
def Obligations.SetAddressAndGlyph : Prop :=
  DecodesOn 0xF000#16 0xA000#16 (fun w => .ldI w.nnnField) ∧
  DecodesOn 0xF0FF#16 0xF029#16 (fun w => .ldF w.xField) ∧
  (∀ (nnn : Word) (s : State), exec (.ldI nnn) s = .next { s with pc := s.pc + 2#16, I := nnn }) ∧
  (∀ (x : Reg) (s : State), ∃ t, exec (.ldF x) s = .next t ∧
    t.I.toNat = 5 * ((s.v x).toNat % 16) ∧ t = { s with pc := s.pc + 2#16, I := t.I })

/-- R141 (the wrap at 65536: D6): `I + V[x]` modulo 65536, no flag and no fault; only `I` and `pc`
change. -/
def Obligations.AddToAddressWraps : Prop :=
  DecodesOn 0xF0FF#16 0xF01E#16 (fun w => .addI w.xField) ∧
  ∀ (x : Reg) (s : State), ∃ t, exec (.addI x) s = .next t ∧
    t.I.toNat = (s.I.toNat + (s.v x).toNat) % 65536 ∧ t = { s with pc := s.pc + 2#16, I := t.I }

/-- R143, R146 (the moment of the check: D13): the decimal digits of `V[x]` at `I`, `I + 1`, `I + 2`;
every other byte of memory and everything but `pc` is kept; out of range nothing changes but `halt`. -/
def Obligations.DecimalStoreWritesThreeDigits : Prop :=
  DecodesOn 0xF0FF#16 0xF033#16 (fun w => .ldB w.xField) ∧
  (∀ (x : Reg) (s : State), Memory.wf s.mem → s.I.toNat + 2 ≤ 4095 → ∃ t, exec (.ldB x) s = .next t ∧
    (t.mem.read s.I.toNat).toNat = (s.v x).toNat / 100 ∧
    (t.mem.read (s.I.toNat + 1)).toNat = (s.v x).toNat / 10 % 10 ∧
    (t.mem.read (s.I.toNat + 2)).toNat = (s.v x).toNat % 10 ∧
    (∀ a, a < s.I.toNat ∨ s.I.toNat + 3 ≤ a → t.mem.read a = s.mem.read a) ∧
    t = { s with pc := s.pc + 2#16, mem := t.mem }) ∧
  (∀ (x : Reg) (s : State), 4095 < s.I.toNat + 2 →
    exec (.ldB x) s = .next { s with halt := some (.fault (.memOutOfRange (s.I.toNat + 2)) s.pc) })

/-- R144, R146 (D13): `V[0]` to `V[x]` at `I` to `I + x`; every other byte of memory and everything but
`pc` is kept, `I` included; out of range nothing changes but `halt`. -/
def Obligations.RegisterDumpStoresPrefix : Prop :=
  DecodesOn 0xF0FF#16 0xF055#16 (fun w => .storeRegs w.xField) ∧
  (∀ (x : Reg) (s : State), Memory.wf s.mem → s.I.toNat + x.val ≤ 4095 →
    ∃ t, exec (.storeRegs x) s = .next t ∧
    (∀ r : Reg, r ≤ x → t.mem.read (s.I.toNat + r.val) = s.v r) ∧
    (∀ a, a < s.I.toNat ∨ s.I.toNat + x.val < a → t.mem.read a = s.mem.read a) ∧
    t = { s with pc := s.pc + 2#16, mem := t.mem }) ∧
  (∀ (x : Reg) (s : State), 4095 < s.I.toNat + x.val →
    exec (.storeRegs x) s =
      .next { s with halt := some (.fault (.memOutOfRange (s.I.toNat + x.val)) s.pc) })

/-- R145, R146 (D13): memory at `I` to `I + x` into `V[0]` to `V[x]`; every other register, all of memory
and `I` are kept; out of range nothing changes but `halt`. -/
def Obligations.RegisterLoadReadsPrefix : Prop :=
  DecodesOn 0xF0FF#16 0xF065#16 (fun w => .loadRegs w.xField) ∧
  (∀ (x : Reg) (s : State), s.I.toNat + x.val ≤ 4095 →
    ∃ t, exec (.loadRegs x) s = .next t ∧ t.pc = s.pc + 2#16 ∧
    (∀ r : Reg, r ≤ x → t.v r = s.mem.read (s.I.toNat + r.val)) ∧
    OnlyRegisters (· ≤ x) s t) ∧
  (∀ (x : Reg) (s : State), 4095 < s.I.toNat + x.val →
    exec (.loadRegs x) s =
      .next { s with halt := some (.fault (.memOutOfRange (s.I.toNat + x.val)) s.pc) })

/-- R145's round trip (the source's property L1.7): a dump, then any change of the registers, then a load
with the same `I` and `x`, restores `V[0]` to `V[x]`. -/
def Obligations.DumpThenLoadRestores : Prop :=
  ∀ (s t : State) (x : Reg) (other : Vector Byte 16) (pc : Word), Memory.wf s.mem →
    s.I.toNat + x.val ≤ 4095 → exec (.storeRegs x) s = .next t →
    ∃ u, exec (.loadRegs x) { t with V := other, pc := pc } = .next u ∧
      (∀ r : Reg, r ≤ x → u.v r = s.v r) ∧
      (∀ r : Reg, ¬r ≤ x → u.v r = other[r.val]) ∧ u.I = s.I ∧ u.mem = t.mem

/-! ## Display -/

/-- R160 (bits 11..8 not examined: D7): every pixel off, VF and everything but `fb` and `pc` kept. -/
def Obligations.ClearScreenZeroesEveryPixel : Prop :=
  DecodesOn 0xF0FF#16 0x00E0#16 (fun _ => .cls) ∧
  ∀ s : State, ∃ t, exec .cls s = .next t ∧ (∀ r c, t.fb.get r c = false) ∧
    t = { s with pc := s.pc + 2#16, fb := t.fb }

/-- R161, R162 (clipped rows not read, bit order: D11; moment of the check: D13): when the rows on the
screen lie in memory, exactly the pixels under a 1 of the sprite are flipped, VF is 1 exactly if one
of them was lit, and nothing else changes but `pc`. -/
def Obligations.DrawFlipsSpritePixels : Prop :=
  DecodesOn 0xF000#16 0xD000#16 (fun w => .drw w.xField w.yField w.nField.toNat) ∧
  ∀ (x y : Reg) (n : Nat) (s : State),
    (min n (32 - (s.v y).toNat % 32) = 0 ∨
      s.I.toNat + min n (32 - (s.v y).toNat % 32) - 1 ≤ 4095) →
    ∃ t, exec (.drw x y n) s = .next t ∧ t.pc = s.pc + 2#16 ∧
      (∀ r c, s.draws x y n r c → t.fb.get r c = !s.fb.get r c) ∧
      (∀ r c, ¬s.draws x y n r c → t.fb.get r c = s.fb.get r c) ∧
      (t.v vf = 1#8 ∨ t.v vf = 0#8) ∧
      (t.v vf = 1#8 ↔ ∃ r c, s.draws x y n r c ∧ s.fb.get r c = true) ∧
      OnlyRegisters (· = vf) s { t with fb := s.fb }

/-- R162 (D11, D13): a row on the screen above address 4095 faults with the highest address such a row
has, before any pixel or VF changes. -/
def Obligations.DrawPastEndOfMemoryFaults : Prop :=
  ∀ (x y : Reg) (n : Nat) (s : State), 1 ≤ n →
    4095 < s.I.toNat + min n (32 - (s.v y).toNat % 32) - 1 →
    exec (.drw x y n) s = .next { s with
      halt := some (.fault (.memOutOfRange (s.I.toNat + min n (32 - (s.v y).toNat % 32) - 1)) s.pc) }

/-- R163 (derived from R162): drawing the same sprite twice at the same coordinate restores the frame
buffer; where the first draw turned a pixel on, the second sets VF. The coordinate registers are not
VF, which the first draw overwrites. -/
def Obligations.DrawingTwiceRestoresTheScreen : Prop :=
  ∀ (x y : Reg) (n : Nat) (s t : State) (pc : Word), x ≠ vf → y ≠ vf → s.halt = none →
    exec (.drw x y n) s = .next t → t.halt = none →
    ∃ u, exec (.drw x y n) { t with pc := pc } = .next u ∧ u.halt = none ∧ u.fb = s.fb ∧
      ((∃ r c, s.draws x y n r c ∧ s.fb.get r c = false) → u.v vf = 1#8)

/-! ## Keypad and timers -/

/-- R170, R171 (all 8 bits compared: D10): Ex9E skips exactly if the key that is down is `V[x]`, ExA1
exactly if it is not; only `pc` changes. -/
def Obligations.KeySkipsTestTheKeyDown : Prop :=
  DecodesOn 0xF0FF#16 0xE09E#16 (fun w => .skp w.xField) ∧
  DecodesOn 0xF0FF#16 0xE0A1#16 (fun w => .sknp w.xField) ∧
  (∀ (x : Reg) (s : State) (k : Key), s.keyDown = some k → k.val = (s.v x).toNat →
    exec (.skp x) s = .next { s with pc := s.pc + 4#16 } ∧
    exec (.sknp x) s = .next { s with pc := s.pc + 2#16 }) ∧
  (∀ (x : Reg) (s : State), (∀ k : Key, s.keyDown = some k → k.val ≠ (s.v x).toNat) →
    exec (.skp x) s = .next { s with pc := s.pc + 2#16 } ∧
    exec (.sknp x) s = .next { s with pc := s.pc + 4#16 })

/-- R173 (third arm: D9): with no key both down and released the step changes nothing; with one, `V[x]`
is that key and `pc` advances by 2; the snapshot is kept either way. -/
def Obligations.KeyWaitLatchesOrStalls : Prop :=
  DecodesOn 0xF0FF#16 0xF00A#16 (fun w => .ldVxK w.xField) ∧
  (∀ (x : Reg) (s : State), s.waitsForKey → exec (.ldVxK x) s = .next s) ∧
  (∀ (x : Reg) (s : State) (k : Key), s.keyDown = some k → s.keyReleased = some k →
    ∃ t, exec (.ldVxK x) s = .next t ∧ t.pc = s.pc + 2#16 ∧ (t.v x).toNat = k.val ∧
      OnlyRegisters (· = x) s t)

/-- R172, R174, R175: `V[x] <- DT`, `DT <- V[x]`, `ST <- V[x]`; no flag, no fault, and `tone` is not
touched. -/
def Obligations.TimerTransfers : Prop :=
  DecodesOn 0xF0FF#16 0xF007#16 (fun w => .ldVxDt w.xField) ∧
  DecodesOn 0xF0FF#16 0xF015#16 (fun w => .ldDtVx w.xField) ∧
  DecodesOn 0xF0FF#16 0xF018#16 (fun w => .ldStVx w.xField) ∧
  ∀ (x : Reg) (s : State),
    (∃ t, exec (.ldVxDt x) s = .next t ∧ t.pc = s.pc + 2#16 ∧ t.v x = s.DT ∧
      OnlyRegisters (· = x) s t) ∧
    exec (.ldDtVx x) s = .next { s with pc := s.pc + 2#16, DT := s.v x } ∧
    exec (.ldStVx x) s = .next { s with pc := s.pc + 2#16, ST := s.v x }

/-! ## The frame sequencer -/

/-- R212, R217: step 1 writes `key_down` and `key_released` from the host's two answers of this frame, in
that order (free values, log 4), and step 7 clears both, the model's counter of frames moving (log 6);
nothing else changes. -/
def Obligations.SnapshotIsSampledAndCleared : Prop :=
  (∀ s : State, s.halt = none → s.phase = .sample →
    step s = .next { s with
      keyDown := Config.hostKeyDown s.frame
      keyReleased := Config.hostKeyReleased s.frame
      phase := .countdown }) ∧
  (∀ s : State, s.halt = none → s.phase = .clear →
    step s = .next { s with
      keyDown := none, keyReleased := none, phase := .sample, frame := s.frame + 1 })

/-- R213: step 2 takes each timer above 0 down by exactly 1 and leaves one at 0; nothing else changes. -/
def Obligations.TimersCountDownOncePerFrame : Prop :=
  ∀ s : State, s.halt = none → s.phase = .countdown → ∃ t, step s = .next t ∧
    t.DT.toNat = s.DT.toNat - 1 ∧ t.ST.toNat = s.ST.toNat - 1 ∧
    t = { s with DT := t.DT, ST := t.ST, phase := .soundBefore }

/-- R214 (the tone as a level: D20), R215: steps 3 and 5 set `tone` to `ST > 0`; a burst of `BURST`
instruction steps follows step 3. -/
def Obligations.ToneFollowsSoundTimer : Prop :=
  (∀ s : State, s.halt = none → s.phase = .soundBefore → ∃ more, more + 1 = Config.burst ∧
    step s = .next { s with tone := decide (s.ST.toNat > 0), phase := .burst more }) ∧
  (∀ s : State, s.halt = none → s.phase = .soundAfter →
    step s = .next { s with tone := decide (s.ST.toNat > 0), phase := .render })

/-- R216, R229 (D23): at step 6 either the host stops the machine, which sets `halt` and nothing else, or
the frame goes on to step 7; which of the two is a free value (log 5). The frame buffer is only read. -/
def Obligations.RenderStopsOrGoesOn : Prop :=
  ∀ s : State, s.halt = none → s.phase = .render →
    step s = .next (if Config.hostStop s.frame then { s with halt := some .stopped }
      else { s with phase := .clear })

/-- R211, R210, R215, R219 (both views give the same states): from the start of a frame, `BURST` + 6
steps of the machine are exactly the frame's seven steps with the host's answers of that frame,
whatever they are and wherever it halts. -/
def Obligations.StepsOfAFrameRefineTheFrame : Prop :=
  ∀ s : State, s.halt = none → s.phase = .sample →
    ∃ t, core.run (Config.burst + 6) s = .next t ∧ (t.halt = none → t.phase = .sample) ∧
      { t with phase := .sample } =
        { (frameState (Config.hostKeyDown s.frame) (Config.hostKeyReleased s.frame)
            (Config.hostStop s.frame) s) with phase := .sample }

/-! ## Rules of the whole machine -/

/-- R63, R22, R57: only Fx33 and Fx55 ever change memory. -/
def Obligations.OnlyStoresChangeMemory : Prop :=
  ∀ s t : State, step s = .next t → t.mem ≠ s.mem →
    ∃ more x, s.phase = .burst more ∧ (s.executes (.ldB x) ∨ s.executes (.storeRegs x))

/-- R31: the frame buffer is "mutated only by the draw opcode and the clear opcode". -/
def Obligations.OnlyClearAndDrawChangePixels : Prop :=
  ∀ s t : State, step s = .next t → t.fb ≠ s.fb →
    ∃ more, s.phase = .burst more ∧ (s.executes .cls ∨ ∃ x y n, s.executes (.drw x y n))

/-- R29, R108: only 2nnn pushes, the address after itself, and only 00EE pops, into `pc`. -/
def Obligations.OnlyCallAndReturnMoveTheStack : Prop :=
  ∀ s t : State, step s = .next t → t.stack ≠ s.stack →
    (∃ nnn, s.executes (.call nnn) ∧ t.stack = s.stack ++ [s.pc + 2#16] ∧ t.pc = nnn) ∨
    (s.executes .ret ∧ s.stack = t.stack ++ [t.pc])

/-- R34, R212, R217, R35, R214, R32, R213: no instruction writes the snapshot or `tone`; the snapshot
changes only at steps 1 and 7, `tone` only at steps 3 and 5, the timers only at step 2 or by Fx15
and Fx18. -/
def Obligations.SequencerStateHasItsOwnWriters : Prop :=
  ∀ s t : State, step s = .next t →
    ((t.keyDown ≠ s.keyDown ∨ t.keyReleased ≠ s.keyReleased) → s.phase = .sample ∨ s.phase = .clear) ∧
    (t.tone ≠ s.tone → s.phase = .soundBefore ∨ s.phase = .soundAfter) ∧
    (t.DT ≠ s.DT → s.phase = .countdown ∨ ∃ x, s.executes (.ldDtVx x)) ∧
    (t.ST ≠ s.ST → s.phase = .countdown ∨ ∃ x, s.executes (.ldStVx x))

/-- R26: an instruction other than 00EE, 1nnn, 2nnn, Bnnn, the six skips and Fx0A that raises no fault
ends with `pc = A + 2`; a skip ends with A + 2 or A + 4; Fx0A with A or A + 2. -/
def Obligations.PcAdvancesAsTabled : Prop :=
  ∀ (i : Instr) (s t : State), exec i s = .next t → faultOf i s = none →
    i = .ret ∨ (∃ nnn, i = .jp nnn ∨ i = .call nnn ∨ i = .jpV0 nnn) ∨
    ((∃ x nn, i = .seImm x nn ∨ i = .sneImm x nn) ∨ (∃ x y, i = .seReg x y ∨ i = .sneReg x y) ∨
      (∃ x, i = .skp x ∨ i = .sknp x)) ∧ (t.pc = s.pc + 2#16 ∨ t.pc = s.pc + 4#16) ∨
    (∃ x, i = .ldVxK x) ∧ (t.pc = s.pc ∨ t.pc = s.pc + 2#16) ∨
    t.pc = s.pc + 2#16

/-- R219: an instruction other than Ex9E, ExA1, Fx07, Fx0A, Fx15, Fx18 does not depend on the timers, the
snapshot or `tone`: with other values there it does the same and keeps them. -/
def Obligations.OtherInstructionsIgnoreTimersAndKeys : Prop :=
  ∀ (i : Instr) (s t : State) (dt st : Byte) (kd kr : Option Key) (tone : Bool),
    (∀ x, i ≠ .skp x ∧ i ≠ .sknp x ∧ i ≠ .ldVxDt x ∧ i ≠ .ldVxK x ∧ i ≠ .ldDtVx x ∧ i ≠ .ldStVx x) →
    exec i s = .next t →
    exec i { s with DT := dt, ST := st, keyDown := kd, keyReleased := kr, tone := tone } =
      .next { t with DT := dt, ST := st, keyDown := kd, keyReleased := kr, tone := tone }

/-- R257 as it is written: the next instruction step leaves a state that is not halted unchanged exactly
when the word at `pc` is a jump to itself or an Fx0A that waits. Bnnn with `nnn + V[0] = pc` does so
too, so the rule's "exactly" does not hold of the machine its other rules describe. -/
def Obligations.StationaryOnlyAtSelfJumpOrKeyWait : Prop :=
  ∀ s : State, s.halt = none → (instrStep s = .next s ↔ s.finished ∨ s.waiting)

/-- R257 made complete: the next instruction step leaves a state that is not halted unchanged exactly
when the program is finished or waiting, or the word at `pc` is a Bnnn with `nnn + V[0] = pc`. -/
def Obligations.StationaryStatesCharacterised : Prop :=
  ∀ s : State, s.halt = none →
    (instrStep s = .next s ↔
      s.finished ∨ s.waiting ∨ ∃ nnn, s.executes (.jpV0 nnn) ∧ nnn.toNat + (s.v 0).toNat = s.pc.toNat)

/-! ## Reset and the invariant -/

/-- R45, R241, R242, R246: the machine right after reset, with the empty ROM: memory reads as the font
(the default table of R243, log 2) and `MEM_FILL`, everything else is at the value of R45's table, and
the first event is step 1 of the first frame. Timers, frame buffer, snapshot and `MEM_FILL` rest on
D14, `tone` on D20, `halt` on D3; the model's two counters start at 0 (log 6). -/
def Obligations.ResetValues : Prop :=
  (∀ a, State.reset.mem.read a = (Config.font[a]?).getD 0x00#8) ∧ Config.font.length = 80 ∧
  (∀ r, State.reset.v r = 0#8) ∧ State.reset.I = 0#16 ∧ State.reset.pc = 0x200#16 ∧
  State.reset.stack = [] ∧ (∀ r c, State.reset.fb.get r c = false) ∧
  State.reset.DT = 0#8 ∧ State.reset.ST = 0#8 ∧ State.reset.keyDown = none ∧
  State.reset.keyReleased = none ∧ State.reset.tone = false ∧ State.reset.halt = none ∧
  State.reset.phase = .sample ∧ State.reset.frame = 0 ∧ State.reset.randoms = 0

/-- R241, R242 (D21), with the default font (log 2): a ROM of at most 3584 bytes is loaded verbatim at 0x200 and every other byte of
memory and all other state is as at reset; a longer ROM is refused. -/
def Obligations.RomIsLoadedVerbatim : Prop :=
  (∀ rom : List Byte, rom.length ≤ 3584 → ∃ s, State.withRom rom = .next s ∧
    (∀ i (h : i < rom.length), s.mem.read (0x200 + i) = rom[i]) ∧
    (∀ a, a < 0x200 ∨ 0x200 + rom.length ≤ a → s.mem.read a = State.reset.mem.read a) ∧
    s = { State.reset with mem := s.mem } ∧ s.Inv) ∧
  (∀ rom : List Byte, 3584 < rom.length → State.withRom rom = .refused (.romTooLong rom.length))

/-- R241, R7, R225 (`MEM_FILL`: D14; the refusal: D21): `Reset(FONT, ROM)` for every font and every ROM of
at most 3584 bytes. The font is copied to addresses 0 to 79 and the ROM to 0x200, every other byte is
`MEM_FILL`, all other state is as at reset, and the machine meets the invariant; a longer ROM is refused
whatever the font. -/
def Obligations.ConstructionLoadsFontAndRom : Prop :=
  (∀ (font : Vector Byte 80) (rom : List Byte), rom.length ≤ 3584 →
    ∃ s, State.construct font rom = .next s ∧
      (∀ i (h : i < 80), s.mem.read i = font[i]) ∧
      (∀ i (h : i < rom.length), s.mem.read (0x200 + i) = rom[i]) ∧
      (∀ a, 80 ≤ a → a < 0x200 ∨ 0x200 + rom.length ≤ a → s.mem.read a = Config.memFill) ∧
      s = { State.reset with mem := s.mem } ∧ s.Inv) ∧
  (∀ (font : Vector Byte 80) (rom : List Byte), 3584 < rom.length →
    State.construct font rom = .refused (.romTooLong rom.length))

/-- The invariant of the machine (R27, R29, R203, R215, R229) holds right after reset. -/
def Obligations.InvariantHoldsAtReset : Prop := State.reset.Inv

/-- Every step from a state that meets the invariant of the machine answers a next state, never a fault
or a refusal of the interface, and that state meets it too (R27, R29, R203, R204, R215, R229). -/
def Obligations.EveryStepKeepsTheInvariant : Prop :=
  ∀ s : State, s.Inv → ∃ t, step s = .next t ∧ t.Inv
end

