-- ==== Sys2Proof/Laws/Decode.lean ====
section
/-! SUPPORT. What the fields of an encoded word are, what a mask of the opcode map says of a word's
dispatch keys, and that the decoder answers well-formed instructions only. -/

namespace Sys2Proof

/-! ## Fields of a concatenation -/

theorem extractLsb'_append_low {v w : Nat} (hi : BitVec w) (lo : BitVec v) :
    (hi ++ lo).extractLsb' 0 v = lo := by
  rw [BitVec.extractLsb'_append_eq_of_add_le (by omega)]
  simp

theorem extractLsb'_append_high {v w : Nat} (k m : Nat) (hi : BitVec w) (lo : BitVec v) :
    (hi ++ lo).extractLsb' (v + k) m = hi.extractLsb' k m := by
  rw [BitVec.extractLsb'_append_eq_of_le (by omega)]
  simp

/-! ## Fields of the formats -/

section
variable (top : Nibble) (x y : Reg) (n : Nibble) (nn : Byte) (nnn : Word)

@[simp] theorem topNibble_formatXNN : (formatXNN top x nn).topNibble = top :=
  (extractLsb'_append_high 4 4 (top ++ (BitVec.ofFin x : Nibble)) nn).trans
    ((extractLsb'_append_high 0 4 _ _).trans (by simp))

@[simp] theorem xField_formatXNN : (formatXNN top x nn).xField = x :=
  congrArg BitVec.toFin ((extractLsb'_append_high 0 4 (top ++ (BitVec.ofFin x : Nibble)) nn).trans
    (extractLsb'_append_low _ _))

@[simp] theorem nnField_formatXNN : (formatXNN top x nn).nnField = nn :=
  extractLsb'_append_low (top ++ (BitVec.ofFin x : Nibble)) nn

@[simp] theorem topNibble_formatXYN : (formatXYN top x y n).topNibble = top :=
  (extractLsb'_append_high 8 4 ((top ++ (BitVec.ofFin x : Nibble)) ++ (BitVec.ofFin y : Nibble)) n).trans
    ((extractLsb'_append_high 4 4 (top ++ (BitVec.ofFin x : Nibble)) (BitVec.ofFin y : Nibble)).trans
      ((extractLsb'_append_high 0 4 _ _).trans (by simp)))

@[simp] theorem xField_formatXYN : (formatXYN top x y n).xField = x :=
  congrArg BitVec.toFin
    ((extractLsb'_append_high 4 4 ((top ++ (BitVec.ofFin x : Nibble)) ++ (BitVec.ofFin y : Nibble)) n).trans
      ((extractLsb'_append_high 0 4 (top ++ (BitVec.ofFin x : Nibble)) (BitVec.ofFin y : Nibble)).trans
        (extractLsb'_append_low _ _)))

@[simp] theorem yField_formatXYN : (formatXYN top x y n).yField = y :=
  congrArg BitVec.toFin
    ((extractLsb'_append_high 0 4 ((top ++ (BitVec.ofFin x : Nibble)) ++ (BitVec.ofFin y : Nibble)) n).trans
      (extractLsb'_append_low _ _))

@[simp] theorem nField_formatXYN : (formatXYN top x y n).nField = n :=
  extractLsb'_append_low ((top ++ (BitVec.ofFin x : Nibble)) ++ (BitVec.ofFin y : Nibble)) n

@[simp] theorem topNibble_formatNNN : (formatNNN top nnn).topNibble = top :=
  (extractLsb'_append_high 0 4 top (nnn.setWidth 12)).trans (by simp)

/-- The address field survives where it fits its twelve bits. -/
theorem nnnField_formatNNN (h : fitsAddress nnn) : (formatNNN top nnn).nnnField = nnn := by
  have he : (formatNNN top nnn).extractLsb' 0 12 = nnn.setWidth 12 :=
    extractLsb'_append_low top (nnn.setWidth 12)
  rw [Word.nnnField, he]
  apply BitVec.eq_of_toNat_eq
  simp only [BitVec.toNat_setWidth]
  unfold fitsAddress at h
  omega

end

/-- The address field always fits its twelve bits. -/
theorem fitsAddress_nnnField (w : Word) : fitsAddress w.nnnField := by
  have h : (w.extractLsb' 0 12).toNat < 2 ^ 12 := (w.extractLsb' 0 12).isLt
  unfold fitsAddress Word.nnnField
  rw [BitVec.toNat_setWidth]
  omega

/-- The two bytes of a word, as memory holds them, give the word back. -/
theorem wordOfBytes_bytesOfWord (w : Word) :
    wordOfBytes (w.extractLsb' 8 8) (w.extractLsb' 0 8) = w := by
  have h := BitVec.extractLsb'_append_extractLsb'_eq_extractLsb' (x := w)
    (start₁ := 0) (start₂ := 8) (len₁ := 8) (len₂ := 8) rfl
  have h2 : w.extractLsb' 0 16 = w := by simp
  exact h.trans h2

/-! ## What a mask says of the dispatch keys -/

theorem topNibble_of_mask {w mask fixed : Word} (hm : mask.topNibble = 0xF#4) (h : w &&& mask = fixed) :
    w.topNibble = fixed.topNibble := by
  subst h
  simp only [Word.topNibble] at hm ⊢
  rw [BitVec.extractLsb'_and, hm, show (0xF#4) = BitVec.allOnes 4 by decide, BitVec.and_allOnes]

theorem nField_of_mask {w mask fixed : Word} (hm : mask.nField = 0xF#4) (h : w &&& mask = fixed) :
    w.nField = fixed.nField := by
  subst h
  simp only [Word.nField] at hm ⊢
  rw [BitVec.extractLsb'_and, hm, show (0xF#4) = BitVec.allOnes 4 by decide, BitVec.and_allOnes]

theorem nnField_of_mask {w mask fixed : Word} (hm : mask.nnField = 0xFF#8) (h : w &&& mask = fixed) :
    w.nnField = fixed.nnField := by
  subst h
  simp only [Word.nnField] at hm ⊢
  rw [BitVec.extractLsb'_and, hm, show (0xFF#8) = BitVec.allOnes 8 by decide, BitVec.and_allOnes]

/-- The bits of a word under the three masks of the opcode map, by its dispatch keys. -/
theorem and_mask_top (w : Word) : w &&& 0xF000#16 = (w.topNibble ++ 0x000#12 : Word) := by
  refine BitVec.eq_of_getLsbD_eq fun i hi => ?_
  rw [show (w.topNibble ++ 0x000#12 : Word).getLsbD i = _ from BitVec.getLsbD_append]
  interval_cases i <;> simp [Word.topNibble]

theorem and_mask_top_n (w : Word) : w &&& 0xF00F#16 = ((w.topNibble ++ 0x00#8) ++ w.nField : Word) := by
  refine BitVec.eq_of_getLsbD_eq fun i hi => ?_
  rw [show ((w.topNibble ++ 0x00#8) ++ w.nField : Word).getLsbD i = _ from BitVec.getLsbD_append]
  simp only [BitVec.getLsbD_append]
  interval_cases i <;> simp [Word.topNibble, Word.nField]

theorem and_mask_top_nn (w : Word) : w &&& 0xF0FF#16 = ((w.topNibble ++ 0x0#4) ++ w.nnField : Word) := by
  refine BitVec.eq_of_getLsbD_eq fun i hi => ?_
  rw [show ((w.topNibble ++ 0x0#4) ++ w.nnField : Word).getLsbD i = _ from BitVec.getLsbD_append]
  simp only [BitVec.getLsbD_append]
  interval_cases i <;> simp [Word.topNibble, Word.nnField]

/-! ## The decoder's answers -/

/-- The sixteen nibbles, so that a proof can split on a word's top nibble. -/
theorem nibble_cases (t : Nibble) :
    t = 0x0#4 ∨ t = 0x1#4 ∨ t = 0x2#4 ∨ t = 0x3#4 ∨ t = 0x4#4 ∨ t = 0x5#4 ∨ t = 0x6#4 ∨ t = 0x7#4 ∨
    t = 0x8#4 ∨ t = 0x9#4 ∨ t = 0xA#4 ∨ t = 0xB#4 ∨ t = 0xC#4 ∨ t = 0xD#4 ∨ t = 0xE#4 ∨ t = 0xF#4 := by
  revert t; decide

/-- A word with top nibble 0xF is decoded by its low byte. -/
theorem decodeWord_of_misc {w : Word} (h : w.topNibble = 0xF#4) : decodeWord w = decodeMisc w := by
  simp [decodeWord, h]

/-- The decoder answers only instructions some word spells. -/
theorem wellFormed_of_decodeWord {w : Word} {i : Instr} (h : decodeWord w = .instr i) :
    i.WellFormed := by
  have haddr := decide_eq_true (fitsAddress_nnnField w)
  have hn : decide (fitsNibble w.nField.toNat) = true := decide_eq_true w.nField.isLt
  unfold decodeWord decodeZero decodeEight decodeKeypad decodeMisc at h
  (repeat' split at h) <;> first
    | (injection h with h; subst h; first | rfl | exact haddr | exact hn)
    | cases h

/-- The instruction at the head of a byte list is the word of its first two bytes. -/
@[simp] theorem decode_cons (hi lo : Byte) (rest : List Byte) :
    decode (hi :: lo :: rest) = (decodeWord (wordOfBytes hi lo), rest) := rfl

/-- Decoding a table word of 16 bits. -/
theorem decodeTableWord_eq (w : Nat) :
    decodeTableWord 16 w = match decodeWord (BitVec.ofNat 16 w) with
      | .instr i => some i
      | .miss _ => none := by
  have hw : BitVec.ofNat 16 (w % 2 ^ 16) = BitVec.ofNat 16 w := by
    apply BitVec.eq_of_toNat_eq
    simp
  have h : decode (tableBytes 16 w) = (decodeWord (BitVec.ofNat 16 w), []) := by
    rw [tableBytes, hw, bytesOfWord, decode_cons, wordOfBytes_bytesOfWord]
  exact congrArg (fun d : Decoded × List Byte => match d.1 with
    | .instr i => some i
    | .miss _ => none) h

end Sys2Proof
end

