-- ==== Sys2Proof/Laws/Display.lean ====
section
/-! SUPPORT. The loops of the sprite draw, pixel by pixel: what a pixel is after a draw, and when a draw
collides (spec/43_display.md R162). -/

namespace Sys2Proof.Machine

/-- A pixel after one pixel is set. -/
theorem FrameBuffer.get_put (fb : FrameBuffer) {r c : Nat} (h : r < 32 ∧ c < 64) (b : Bool)
    (r' c' : Nat) : (fb.put r c b).get r' c' = if r' = r ∧ c' = c then b else fb.get r' c' := by
  unfold FrameBuffer.put FrameBuffer.get
  rw [dif_pos h]
  by_cases h' : r' < 32 ∧ c' < 64
  · rw [dif_pos h', dif_pos h', Vector.getElem_set]
    by_cases hr : r = r'
    · subst hr
      rw [if_pos rfl, Vector.getElem_set]
      by_cases hc : c = c' <;> simp [hc, eq_comm]
    · rw [if_neg hr, if_neg (fun e => hr e.1.symm)]
  · rw [dif_neg h', dif_neg h']
    split
    · rename_i e
      exact absurd ⟨e.1 ▸ h.1, e.2 ▸ h.2⟩ h'
    · rfl

/-- Off the screen there is no pixel. -/
theorem FrameBuffer.get_outside (fb : FrameBuffer) {r c : Nat} (h : ¬(r < 32 ∧ c < 64)) :
    fb.get r c = false := dif_neg h

@[simp] theorem FrameBuffer.get_blank (r c : Nat) : FrameBuffer.blank.get r c = false := by
  unfold FrameBuffer.get FrameBuffer.blank
  split <;> simp

/-- Two frame buffers whose pixels agree are equal. -/
theorem FrameBuffer.ext_get {f g : FrameBuffer} (h : ∀ r c, f.get r c = g.get r c) : f = g := by
  refine Vector.ext fun r hr => Vector.ext fun c hc => ?_
  have := h r c
  rwa [FrameBuffer.get, FrameBuffer.get, dif_pos ⟨hr, hc⟩, dif_pos ⟨hr, hc⟩] at this

/-- The first `k` columns of a sprite row: each drawn pixel is flipped, and there is a hit exactly if
one before or a drawn bit over a lit pixel. -/
theorem drawColumns_spec (b : Byte) {r : Nat} (hr : r < 32) (x0 k : Nat) (hk : k ≤ 8)
    (acc : FrameBuffer × Bool) :
    let out := (List.range k).foldl
      (fun acc c => if decide (x0 + c ≤ 63) && b.getLsbD (7 - c) then flipPixel acc r (x0 + c) else acc) acc
    (∀ r' c', out.1.get r' c' =
      (acc.1.get r' c' ^^ decide (r' = r ∧ x0 ≤ c' ∧ c' < x0 + k ∧ c' ≤ 63 ∧ b.getLsbD (7 - (c' - x0)) = true))) ∧
    (out.2 = true ↔ acc.2 = true ∨
      ∃ c', x0 ≤ c' ∧ c' < x0 + k ∧ c' ≤ 63 ∧ b.getLsbD (7 - (c' - x0)) = true ∧ acc.1.get r c' = true) := by
  induction k with
  | zero =>
    simp only [List.range_zero, List.foldl_nil, Nat.add_zero]
    refine ⟨fun r' c' => ?_, ?_⟩
    · rw [decide_eq_false (by omega), Bool.xor_false]
    · constructor
      · exact .inl
      · rintro (h | ⟨c', h1, h2, -⟩)
        · exact h
        · omega
  | succ k ih =>
    obtain ⟨ih1, ih2⟩ := ih (by omega)
    simp only [List.range_succ, List.foldl_append, List.foldl_cons, List.foldl_nil]
    generalize hout : (List.range k).foldl
      (fun acc c => if decide (x0 + c ≤ 63) && b.getLsbD (7 - c) then flipPixel acc r (x0 + c) else acc) acc = out at ih1 ih2 ⊢
    by_cases hd : x0 + k ≤ 63 ∧ b.getLsbD (7 - k) = true
    · rw [if_pos (by simp [hd.1, hd.2])]
      have hold : out.1.get r (x0 + k) = acc.1.get r (x0 + k) := by
        rw [ih1, decide_eq_false (by omega), Bool.xor_false]
      refine ⟨fun r' c' => ?_, ?_⟩
      · simp only [flipPixel]
        rw [FrameBuffer.get_put _ ⟨hr, by omega⟩, hold]
        by_cases he : r' = r ∧ c' = x0 + k
        · obtain ⟨rfl, rfl⟩ := he
          rw [if_pos ⟨rfl, rfl⟩, decide_eq_true]
          · simp
          · exact ⟨rfl, by omega, by omega, hd.1, by simpa using hd.2⟩
        · rw [if_neg he, ih1]
          congr 1
          refine decide_eq_decide.2 ⟨?_, ?_⟩
          · rintro ⟨rfl, a1, a2, a3, a4⟩
            exact ⟨rfl, a1, by omega, a3, a4⟩
          · rintro ⟨rfl, a1, a2, a3, a4⟩
            have : c' ≠ x0 + k := fun e => he ⟨rfl, e⟩
            exact ⟨rfl, a1, by omega, a3, a4⟩
      · simp only [flipPixel, Bool.or_eq_true, ih2, hold]
        constructor
        · rintro ((h | ⟨c', h1, h2, h3, h4, h5⟩) | h)
          · exact .inl h
          · exact .inr ⟨c', h1, by omega, h3, h4, h5⟩
          · exact .inr ⟨x0 + k, by omega, by omega, hd.1, by simpa using hd.2, h⟩
        · rintro (h | ⟨c', h1, h2, h3, h4, h5⟩)
          · exact .inl (.inl h)
          · by_cases hc : c' = x0 + k
            · exact .inr (hc ▸ h5)
            · exact .inl (.inr ⟨c', h1, by omega, h3, h4, h5⟩)
    · rw [if_neg (by simpa [Bool.and_eq_true] using hd)]
      have drop : ∀ c', c' = x0 + k → ¬(c' ≤ 63 ∧ b.getLsbD (7 - (c' - x0)) = true) := by
        rintro c' rfl ⟨h1, h2⟩
        exact hd ⟨h1, by simpa using h2⟩
      refine ⟨fun r' c' => ?_, ?_⟩
      · rw [ih1]
        congr 1
        refine decide_eq_decide.2 ⟨?_, ?_⟩
        · rintro ⟨rfl, a1, a2, a3, a4⟩
          exact ⟨rfl, a1, by omega, a3, a4⟩
        · rintro ⟨rfl, a1, a2, a3, a4⟩
          have : c' ≠ x0 + k := fun e => drop c' e ⟨a3, a4⟩
          exact ⟨rfl, a1, by omega, a3, a4⟩
      · rw [ih2]
        refine or_congr Iff.rfl ⟨?_, ?_⟩
        · rintro ⟨c', h1, h2, h3, h4, h5⟩
          exact ⟨c', h1, by omega, h3, h4, h5⟩
        · rintro ⟨c', h1, h2, h3, h4, h5⟩
          have : c' ≠ x0 + k := fun e => drop c' e ⟨h3, h4⟩
          exact ⟨c', h1, by omega, h3, h4, h5⟩

/-- Everything a draw does to the frame buffer: exactly the pixels under a 1 of the sprite are flipped,
and there is a hit exactly if one of them was lit. -/
theorem drawRows_spec (m : Memory) (base x0 y0 rows : Nat) (fb : FrameBuffer) (hrows : y0 + rows ≤ 32) :
    (∀ r c, (spriteCovers m base x0 y0 rows r c → (drawRows m base x0 y0 rows fb).1.get r c = !fb.get r c) ∧
      (¬spriteCovers m base x0 y0 rows r c → (drawRows m base x0 y0 rows fb).1.get r c = fb.get r c)) ∧
    ((drawRows m base x0 y0 rows fb).2 = true ↔
      ∃ r c, spriteCovers m base x0 y0 rows r c ∧ fb.get r c = true) := by
  induction rows with
  | zero =>
    have no : ∀ r c, ¬spriteCovers m base x0 y0 0 r c := fun r c h => by
      unfold spriteCovers at h; omega
    refine ⟨fun r c => ⟨fun h => absurd h (no r c), fun _ => rfl⟩, ?_⟩
    simp [drawRows, no]
  | succ k ih =>
    obtain ⟨ih1, ih2⟩ := ih (by omega)
    have hstep : drawRows m base x0 y0 (k + 1) fb =
        drawRow (m.read (base + k)) (y0 + k) x0 (drawRows m base x0 y0 k fb) := by
      simp [drawRows, List.range_succ, List.foldl_append]
    obtain ⟨c1, c2⟩ := drawColumns_spec (m.read (base + k)) (r := y0 + k) (by omega) x0 8
      (Nat.le_refl 8) (drawRows m base x0 y0 k fb)
    have cover : ∀ r c, spriteCovers m base x0 y0 (k + 1) r c ↔
        spriteCovers m base x0 y0 k r c ∨ (r = y0 + k ∧ x0 ≤ c ∧ c < x0 + 8 ∧ c ≤ 63 ∧
          (m.read (base + k)).getLsbD (7 - (c - x0)) = true) := by
      intro r c
      unfold spriteCovers
      constructor
      · rintro ⟨h1, h2, h3, h4, h5, h6, h7⟩
        by_cases hr : r = y0 + k
        · subst hr
          exact .inr ⟨rfl, h4, h5, h6, by simpa using h7⟩
        · exact .inl ⟨h1, by omega, h3, h4, h5, h6, h7⟩
      · rintro (⟨h1, h2, h3, h4, h5, h6, h7⟩ | ⟨rfl, h4, h5, h6, h7⟩)
        · exact ⟨h1, by omega, h3, h4, h5, h6, h7⟩
        · exact ⟨by omega, by omega, by omega, h4, h5, h6, by simpa using h7⟩
    have old : ∀ r c, r = y0 + k → (drawRows m base x0 y0 k fb).1.get r c = fb.get r c := by
      rintro r c rfl
      exact (ih1 _ _).2 fun h => by unfold spriteCovers at h; omega
    rw [hstep]
    refine ⟨fun r c => ?_, ?_⟩
    · have hc := c1 r c
      rw [show drawRow (m.read (base + k)) (y0 + k) x0 (drawRows m base x0 y0 k fb) = _ from rfl, drawRow, hc]
      by_cases hn : r = y0 + k ∧ x0 ≤ c ∧ c < x0 + 8 ∧ c ≤ 63 ∧
          (m.read (base + k)).getLsbD (7 - (c - x0)) = true
      · rw [decide_eq_true hn, old r c hn.1]
        exact ⟨fun _ => by simp, fun h => absurd ((cover r c).2 (.inr hn)) h⟩
      · rw [decide_eq_false hn, Bool.xor_false]
        constructor
        · intro h
          rcases (cover r c).1 h with h | h
          · exact (ih1 r c).1 h
          · exact absurd h hn
        · exact fun h => (ih1 r c).2 fun h' => h ((cover r c).2 (.inl h'))
    · rw [drawRow, c2, ih2]
      constructor
      · rintro (⟨r, c, h, hl⟩ | ⟨c, h1, h2, h3, h4, hl⟩)
        · exact ⟨r, c, (cover r c).2 (.inl h), hl⟩
        · rw [old _ c rfl] at hl
          exact ⟨y0 + k, c, (cover _ c).2 (.inr ⟨rfl, h1, h2, h3, h4⟩), hl⟩
      · rintro ⟨r, c, h, hl⟩
        rcases (cover r c).1 h with h | ⟨rfl, h1, h2, h3, h4⟩
        · exact .inl ⟨r, c, h, hl⟩
        · exact .inr ⟨c, h1, h2, h3, h4, by rw [old _ c rfl]; exact hl⟩

end Sys2Proof.Machine
end

