-- ==== Sys2Proof/Laws/Memory.lean ====
section
/-! SUPPORT. The laws of memory: a read after a write, and that every memory operation keeps the
canonical form. -/

namespace Sys2Proof.Machine

/-- A read after an insertion. -/
theorem Memory.read_insert (m : Memory) (a k : Nat) (b : Byte) :
    (Memory.insert a b m).read k = if k = a then b else m.read k := by
  induction m with
  | nil => simp [Memory.insert, Memory.read]
  | cons e rest ih =>
    obtain ⟨j, c⟩ := e
    simp only [Memory.insert]
    split
    · simp [Memory.read]
    · split
      · subst_vars; by_cases hk : k = j <;> simp [Memory.read, hk]
      · simp only [Memory.read, ih]
        split <;> split <;> simp_all

/-- An address listed nowhere reads as at reset. -/
theorem Memory.read_of_not_mem (m : Memory) (a : Nat) (h : ∀ c ∈ m, c.1 ≠ a) :
    m.read a = Memory.resetByte a := by
  induction m with
  | nil => rfl
  | cons e rest ih =>
    obtain ⟨j, c⟩ := e
    have hj : a ≠ j := fun e => h (j, c) (by simp) e.symm
    simp only [Memory.read, hj, if_false]
    exact ih fun c hc => h c (by simp [hc])

/-- In a memory whose addresses rise, a read after an erasure. -/
theorem Memory.read_erase (m : Memory) (a k : Nat) (hm : (m.map (·.1)).Pairwise (· < ·)) :
    (Memory.erase a m).read k = if k = a then Memory.resetByte a else m.read k := by
  induction m with
  | nil => by_cases hk : k = a <;> simp [Memory.erase, Memory.read, hk]
  | cons e rest ih =>
    obtain ⟨j, c⟩ := e
    simp only [List.map_cons, List.pairwise_cons, List.mem_map, forall_exists_index, and_imp,
      forall_apply_eq_imp_iff₂] at hm
    simp only [Memory.erase]
    split
    · subst_vars
      by_cases hk : k = j
      · subst hk
        simpa using Memory.read_of_not_mem rest k fun c hc => (Nat.ne_of_gt (hm.1 c hc))
      · simp [Memory.read, hk]
    · simp only [Memory.read, ih hm.2]
      split <;> split <;> simp_all

/-- The addresses of an insertion are the inserted one and the old ones. -/
theorem Memory.mem_insert {m : Memory} {a : Nat} {b : Byte} {c : Host.Cell}
    (h : c ∈ Memory.insert a b m) : c = (a, b) ∨ c ∈ m := by
  induction m with
  | nil => simpa [Memory.insert] using h
  | cons e rest ih =>
    obtain ⟨j, d⟩ := e
    simp only [Memory.insert] at h
    split at h
    · simpa using h
    · split at h
      · rcases List.mem_cons.1 h with h | h <;> simp [h]
      · rcases List.mem_cons.1 h with h | h
        · simp [h]
        · rcases ih h with h | h <;> simp [h]

theorem Memory.mem_erase {m : Memory} {a : Nat} {c : Host.Cell} (h : c ∈ Memory.erase a m) :
    c ∈ m := by
  induction m with
  | nil => simp [Memory.erase] at h
  | cons e rest ih =>
    obtain ⟨j, d⟩ := e
    simp only [Memory.erase] at h
    split at h
    · simp [h]
    · rcases List.mem_cons.1 h with h | h
      · simp [h]
      · simp [ih h]

theorem Memory.insert_sorted {m : Memory} (a : Nat) (b : Byte)
    (hm : (m.map (·.1)).Pairwise (· < ·)) : ((Memory.insert a b m).map (·.1)).Pairwise (· < ·) := by
  induction m with
  | nil => simp [Memory.insert]
  | cons e rest ih =>
    obtain ⟨j, d⟩ := e
    simp only [List.map_cons, List.pairwise_cons, List.mem_map, forall_exists_index, and_imp,
      forall_apply_eq_imp_iff₂] at hm
    simp only [Memory.insert]
    split
    · rename_i hlt
      simp only [List.map_cons, List.pairwise_cons, List.mem_cons, List.mem_map]
      refine ⟨?_, ?_, hm.2⟩
      · rintro k (rfl | ⟨c, hc, rfl⟩)
        · exact hlt
        · exact Nat.lt_trans hlt (hm.1 c hc)
      · rintro k ⟨c, hc, rfl⟩
        exact hm.1 c hc
    · split
      · rename_i heq
        simp only [List.map_cons, List.pairwise_cons, List.mem_map]
        refine ⟨?_, hm.2⟩
        rintro k ⟨c, hc, rfl⟩
        exact heq ▸ hm.1 c hc
      · rename_i h1 h2
        simp only [List.map_cons, List.pairwise_cons, List.mem_map]
        refine ⟨?_, ih hm.2⟩
        rintro k ⟨c, hc, rfl⟩
        rcases Memory.mem_insert hc with rfl | hc
        · show j < a
          omega
        · exact hm.1 c hc

theorem Memory.erase_sorted {m : Memory} (a : Nat) (hm : (m.map (·.1)).Pairwise (· < ·)) :
    ((Memory.erase a m).map (·.1)).Pairwise (· < ·) := by
  induction m with
  | nil => simp [Memory.erase]
  | cons e rest ih =>
    obtain ⟨j, d⟩ := e
    simp only [List.map_cons, List.pairwise_cons, List.mem_map, forall_exists_index, and_imp,
      forall_apply_eq_imp_iff₂] at hm
    simp only [Memory.erase]
    split
    · exact hm.2
    · simp only [List.map_cons, List.pairwise_cons, List.mem_map]
      refine ⟨?_, ih hm.2⟩
      rintro k ⟨c, hc, rfl⟩
      exact hm.1 c (Memory.mem_erase hc)

/-- Every store keeps the canonical form. -/
theorem Memory.write_wf {m : Memory} (a : Nat) (b : Byte) (hm : Memory.wf m) :
    Memory.wf (m.write a b) := by
  unfold Memory.write
  split
  · rename_i ha
    split
    · exact ⟨Memory.erase_sorted a hm.1, fun c hc => hm.2 c (Memory.mem_erase hc)⟩
    · rename_i hb
      refine ⟨Memory.insert_sorted a b hm.1, fun c hc => ?_⟩
      rcases Memory.mem_insert hc with rfl | hc
      · exact ⟨ha, hb⟩
      · exact hm.2 c hc
  · exact hm

/-- A read after a store to an address of memory. -/
theorem Memory.read_write {m : Memory} (hm : Memory.wf m) {a : Nat} (ha : a < 4096) (k : Nat)
    (b : Byte) : (m.write a b).read k = if k = a then b else m.read k := by
  unfold Memory.write
  rw [if_pos ha]
  split
  · subst_vars; exact Memory.read_erase m a k hm.1
  · exact Memory.read_insert m a k b

/-- A store outside memory changes nothing. -/
theorem Memory.write_of_le {m : Memory} {a : Nat} (ha : 4096 ≤ a) (b : Byte) : m.write a b = m := by
  simp [Memory.write, Nat.not_lt.2 ha]

/-- Storing bytes keeps the canonical form. -/
theorem Memory.storeBytes_wf {m : Memory} (base : Nat) (bs : List Byte) (hm : Memory.wf m) :
    Memory.wf (m.storeBytes base bs) := by
  induction bs generalizing m base with
  | nil => exact hm
  | cons b rest ih => exact ih (base + 1) (Memory.write_wf base b hm)

/-- Everything storing bytes does: inside the range each address reads its byte, every other address
reads as before. -/
theorem Memory.read_storeBytes {m : Memory} (hm : Memory.wf m) (base : Nat) (bs : List Byte)
    (hr : base + bs.length ≤ 4096) (a : Nat) :
    (m.storeBytes base bs).read a =
      if base ≤ a ∧ a < base + bs.length then bs[a - base]?.getD 0#8 else m.read a := by
  induction bs generalizing m base with
  | nil => simp [Memory.storeBytes]
  | cons b rest ih =>
    simp only [List.length_cons] at hr ⊢
    have hb : base < 4096 := by omega
    simp only [Memory.storeBytes]
    rw [ih (Memory.write_wf base b hm) (base + 1) (by omega), Memory.read_write hm hb]
    by_cases h0 : a = base
    · subst h0
      simp
    · by_cases h1 : base + 1 ≤ a ∧ a < base + 1 + rest.length
      · have : a - base = (a - (base + 1)) + 1 := by omega
        rw [if_pos h1, if_pos (by omega), this, List.getElem?_cons_succ]
      · rw [if_neg h1, if_neg h0, if_neg (by omega)]

/-- An address outside the stored range reads as before, whatever the memory lists. -/
theorem Memory.read_storeBytes_outside {m : Memory} (hm : Memory.wf m) (base : Nat) (bs : List Byte)
    {a : Nat} (ha : a < base ∨ base + bs.length ≤ a) :
    (m.storeBytes base bs).read a = m.read a := by
  induction bs generalizing m base with
  | nil => rfl
  | cons b rest ih =>
    simp only [List.length_cons] at ha
    simp only [Memory.storeBytes]
    rw [ih (Memory.write_wf base b hm) (base + 1) (by omega)]
    by_cases hb : base < 4096
    · rw [Memory.read_write hm hb, if_neg (by omega)]
    · rw [Memory.write_of_le (by omega)]

/-- A listed address reads its byte. -/
theorem Memory.read_of_mem {m : Memory} (hm : Memory.wf m) {c : Host.Cell} (hc : c ∈ m) :
    m.read c.1 = c.2 := by
  induction m with
  | nil => simp at hc
  | cons e rest ih =>
    obtain ⟨j, d⟩ := e
    have hs := hm.1
    simp only [List.map_cons, List.pairwise_cons, List.mem_map, forall_exists_index, and_imp,
      forall_apply_eq_imp_iff₂] at hs
    rcases List.mem_cons.1 hc with rfl | hc
    · simp [Memory.read]
    · have : c.1 ≠ j := Nat.ne_of_gt (hs.1 c hc)
      simp only [Memory.read, this, if_false]
      exact ih ⟨hs.2, fun c h => hm.2 c (by simp [h])⟩ hc

/-- What a memory in canonical form lists: the addresses that read otherwise than at reset. -/
theorem Memory.mem_iff {m : Memory} (hm : Memory.wf m) (c : Host.Cell) :
    c ∈ m ↔ m.read c.1 = c.2 ∧ c.2 ≠ Memory.resetByte c.1 := by
  constructor
  · exact fun hc => ⟨Memory.read_of_mem hm hc, (hm.2 c hc).2⟩
  · rintro ⟨hr, hne⟩
    by_contra hc
    refine hne (hr.symm.trans (Memory.read_of_not_mem m c.1 fun d hd he => hc ?_))
    have := Memory.read_of_mem hm hd
    rw [he, hr] at this
    exact (Prod.ext he this.symm : d = c) ▸ hd

/-- Two memories in canonical form that read alike are equal: equal memories are equal data. -/
theorem Memory.ext_read {m n : Memory} (hm : Memory.wf m) (hn : Memory.wf n)
    (h : ∀ a, m.read a = n.read a) : m = n := by
  have nodup : ∀ {l : Memory}, Memory.wf l → l.Nodup := fun hl =>
    List.Nodup.of_map (fun c : Host.Cell => c.1) (hl.1.imp fun h => Nat.ne_of_lt h)
  have hp : m.Perm n := (List.perm_ext_iff_of_nodup (nodup hm) (nodup hn)).2 fun c => by
    rw [Memory.mem_iff hm, Memory.mem_iff hn, h]
  have hs : ∀ {l : Memory}, Memory.wf l → l.Pairwise (fun a b => a.1 < b.1) := fun hl =>
    List.pairwise_map.1 hl.1
  exact hp.eq_of_pairwise (fun a b _ _ hab hba => absurd hba (Nat.lt_asymm hab)) (hs hm) (hs hn)

theorem Memory.reset_wf : Memory.wf State.reset.mem := by decide

end Sys2Proof.Machine
end

