-- ==== Sys2Proof/Laws/State.lean ====
section
/-! SUPPORT. One lemma per field per update of the state, each true by rfl: what an update writes and
that it leaves every other field alone, so that no proof unfolds a record update. -/

namespace Sys2Proof.Machine

/-! ### State.advance -/

@[simp] theorem State.advance_V (s : State) : s.advance.V = s.V := rfl
@[simp] theorem State.advance_I (s : State) : s.advance.I = s.I := rfl
@[simp] theorem State.advance_pc (s : State) : s.advance.pc = s.pc + 2#16 := rfl
@[simp] theorem State.advance_stack (s : State) : s.advance.stack = s.stack := rfl
@[simp] theorem State.advance_fb (s : State) : s.advance.fb = s.fb := rfl
@[simp] theorem State.advance_DT (s : State) : s.advance.DT = s.DT := rfl
@[simp] theorem State.advance_ST (s : State) : s.advance.ST = s.ST := rfl
@[simp] theorem State.advance_keyDown (s : State) : s.advance.keyDown = s.keyDown := rfl
@[simp] theorem State.advance_keyReleased (s : State) : s.advance.keyReleased = s.keyReleased := rfl
@[simp] theorem State.advance_tone (s : State) : s.advance.tone = s.tone := rfl
@[simp] theorem State.advance_halt (s : State) : s.advance.halt = s.halt := rfl
@[simp] theorem State.advance_phase (s : State) : s.advance.phase = s.phase := rfl
@[simp] theorem State.advance_mem (s : State) : s.advance.mem = s.mem := rfl
@[simp] theorem State.advance_frame (s : State) : s.advance.frame = s.frame := rfl
@[simp] theorem State.advance_randoms (s : State) : s.advance.randoms = s.randoms := rfl

/-! ### State.setV -/

@[simp] theorem State.setV_V (s : State) (r : Reg) (b : Byte) : (s.setV r b).V = s.V.set r.val b := rfl
@[simp] theorem State.setV_I (s : State) (r : Reg) (b : Byte) : (s.setV r b).I = s.I := rfl
@[simp] theorem State.setV_pc (s : State) (r : Reg) (b : Byte) : (s.setV r b).pc = s.pc := rfl
@[simp] theorem State.setV_stack (s : State) (r : Reg) (b : Byte) : (s.setV r b).stack = s.stack := rfl
@[simp] theorem State.setV_fb (s : State) (r : Reg) (b : Byte) : (s.setV r b).fb = s.fb := rfl
@[simp] theorem State.setV_DT (s : State) (r : Reg) (b : Byte) : (s.setV r b).DT = s.DT := rfl
@[simp] theorem State.setV_ST (s : State) (r : Reg) (b : Byte) : (s.setV r b).ST = s.ST := rfl
@[simp] theorem State.setV_keyDown (s : State) (r : Reg) (b : Byte) : (s.setV r b).keyDown = s.keyDown := rfl
@[simp] theorem State.setV_keyReleased (s : State) (r : Reg) (b : Byte) : (s.setV r b).keyReleased = s.keyReleased := rfl
@[simp] theorem State.setV_tone (s : State) (r : Reg) (b : Byte) : (s.setV r b).tone = s.tone := rfl
@[simp] theorem State.setV_halt (s : State) (r : Reg) (b : Byte) : (s.setV r b).halt = s.halt := rfl
@[simp] theorem State.setV_phase (s : State) (r : Reg) (b : Byte) : (s.setV r b).phase = s.phase := rfl
@[simp] theorem State.setV_mem (s : State) (r : Reg) (b : Byte) : (s.setV r b).mem = s.mem := rfl
@[simp] theorem State.setV_frame (s : State) (r : Reg) (b : Byte) : (s.setV r b).frame = s.frame := rfl
@[simp] theorem State.setV_randoms (s : State) (r : Reg) (b : Byte) : (s.setV r b).randoms = s.randoms := rfl

/-! ### State.push -/

@[simp] theorem State.push_V (s : State) (v : Word) : (s.push v).V = s.V := rfl
@[simp] theorem State.push_I (s : State) (v : Word) : (s.push v).I = s.I := rfl
@[simp] theorem State.push_pc (s : State) (v : Word) : (s.push v).pc = s.pc := rfl
@[simp] theorem State.push_stack (s : State) (v : Word) : (s.push v).stack = s.stack ++ [v] := rfl
@[simp] theorem State.push_fb (s : State) (v : Word) : (s.push v).fb = s.fb := rfl
@[simp] theorem State.push_DT (s : State) (v : Word) : (s.push v).DT = s.DT := rfl
@[simp] theorem State.push_ST (s : State) (v : Word) : (s.push v).ST = s.ST := rfl
@[simp] theorem State.push_keyDown (s : State) (v : Word) : (s.push v).keyDown = s.keyDown := rfl
@[simp] theorem State.push_keyReleased (s : State) (v : Word) : (s.push v).keyReleased = s.keyReleased := rfl
@[simp] theorem State.push_tone (s : State) (v : Word) : (s.push v).tone = s.tone := rfl
@[simp] theorem State.push_halt (s : State) (v : Word) : (s.push v).halt = s.halt := rfl
@[simp] theorem State.push_phase (s : State) (v : Word) : (s.push v).phase = s.phase := rfl
@[simp] theorem State.push_mem (s : State) (v : Word) : (s.push v).mem = s.mem := rfl
@[simp] theorem State.push_frame (s : State) (v : Word) : (s.push v).frame = s.frame := rfl
@[simp] theorem State.push_randoms (s : State) (v : Word) : (s.push v).randoms = s.randoms := rfl

/-! ### State.raise -/

@[simp] theorem State.raise_V (s : State) (c : Fault) : (s.raise c).V = s.V := rfl
@[simp] theorem State.raise_I (s : State) (c : Fault) : (s.raise c).I = s.I := rfl
@[simp] theorem State.raise_pc (s : State) (c : Fault) : (s.raise c).pc = s.pc := rfl
@[simp] theorem State.raise_stack (s : State) (c : Fault) : (s.raise c).stack = s.stack := rfl
@[simp] theorem State.raise_fb (s : State) (c : Fault) : (s.raise c).fb = s.fb := rfl
@[simp] theorem State.raise_DT (s : State) (c : Fault) : (s.raise c).DT = s.DT := rfl
@[simp] theorem State.raise_ST (s : State) (c : Fault) : (s.raise c).ST = s.ST := rfl
@[simp] theorem State.raise_keyDown (s : State) (c : Fault) : (s.raise c).keyDown = s.keyDown := rfl
@[simp] theorem State.raise_keyReleased (s : State) (c : Fault) : (s.raise c).keyReleased = s.keyReleased := rfl
@[simp] theorem State.raise_tone (s : State) (c : Fault) : (s.raise c).tone = s.tone := rfl
@[simp] theorem State.raise_halt (s : State) (c : Fault) : (s.raise c).halt = some (.fault c s.pc) := rfl
@[simp] theorem State.raise_phase (s : State) (c : Fault) : (s.raise c).phase = s.phase := rfl
@[simp] theorem State.raise_mem (s : State) (c : Fault) : (s.raise c).mem = s.mem := rfl
@[simp] theorem State.raise_frame (s : State) (c : Fault) : (s.raise c).frame = s.frame := rfl
@[simp] theorem State.raise_randoms (s : State) (c : Fault) : (s.raise c).randoms = s.randoms := rfl

/-! ### State.setFlag -/

@[simp] theorem State.setFlag_V (s : State) (f : Bool) : (s.setFlag f).V = s.V.set 15 (flagByte f) := rfl
@[simp] theorem State.setFlag_I (s : State) (f : Bool) : (s.setFlag f).I = s.I := rfl
@[simp] theorem State.setFlag_pc (s : State) (f : Bool) : (s.setFlag f).pc = s.pc := rfl
@[simp] theorem State.setFlag_stack (s : State) (f : Bool) : (s.setFlag f).stack = s.stack := rfl
@[simp] theorem State.setFlag_fb (s : State) (f : Bool) : (s.setFlag f).fb = s.fb := rfl
@[simp] theorem State.setFlag_DT (s : State) (f : Bool) : (s.setFlag f).DT = s.DT := rfl
@[simp] theorem State.setFlag_ST (s : State) (f : Bool) : (s.setFlag f).ST = s.ST := rfl
@[simp] theorem State.setFlag_keyDown (s : State) (f : Bool) : (s.setFlag f).keyDown = s.keyDown := rfl
@[simp] theorem State.setFlag_keyReleased (s : State) (f : Bool) : (s.setFlag f).keyReleased = s.keyReleased := rfl
@[simp] theorem State.setFlag_tone (s : State) (f : Bool) : (s.setFlag f).tone = s.tone := rfl
@[simp] theorem State.setFlag_halt (s : State) (f : Bool) : (s.setFlag f).halt = s.halt := rfl
@[simp] theorem State.setFlag_phase (s : State) (f : Bool) : (s.setFlag f).phase = s.phase := rfl
@[simp] theorem State.setFlag_mem (s : State) (f : Bool) : (s.setFlag f).mem = s.mem := rfl
@[simp] theorem State.setFlag_frame (s : State) (f : Bool) : (s.setFlag f).frame = s.frame := rfl
@[simp] theorem State.setFlag_randoms (s : State) (f : Bool) : (s.setFlag f).randoms = s.randoms := rfl

/-! ### State.setResult -/

@[simp] theorem State.setResult_V (s : State) (r : Reg) (b : Byte) (f : Bool) : (s.setResult r b f).V = (s.V.set r.val b).set 15 (flagByte f) := rfl
@[simp] theorem State.setResult_I (s : State) (r : Reg) (b : Byte) (f : Bool) : (s.setResult r b f).I = s.I := rfl
@[simp] theorem State.setResult_pc (s : State) (r : Reg) (b : Byte) (f : Bool) : (s.setResult r b f).pc = s.pc := rfl
@[simp] theorem State.setResult_stack (s : State) (r : Reg) (b : Byte) (f : Bool) : (s.setResult r b f).stack = s.stack := rfl
@[simp] theorem State.setResult_fb (s : State) (r : Reg) (b : Byte) (f : Bool) : (s.setResult r b f).fb = s.fb := rfl
@[simp] theorem State.setResult_DT (s : State) (r : Reg) (b : Byte) (f : Bool) : (s.setResult r b f).DT = s.DT := rfl
@[simp] theorem State.setResult_ST (s : State) (r : Reg) (b : Byte) (f : Bool) : (s.setResult r b f).ST = s.ST := rfl
@[simp] theorem State.setResult_keyDown (s : State) (r : Reg) (b : Byte) (f : Bool) : (s.setResult r b f).keyDown = s.keyDown := rfl
@[simp] theorem State.setResult_keyReleased (s : State) (r : Reg) (b : Byte) (f : Bool) : (s.setResult r b f).keyReleased = s.keyReleased := rfl
@[simp] theorem State.setResult_tone (s : State) (r : Reg) (b : Byte) (f : Bool) : (s.setResult r b f).tone = s.tone := rfl
@[simp] theorem State.setResult_halt (s : State) (r : Reg) (b : Byte) (f : Bool) : (s.setResult r b f).halt = s.halt := rfl
@[simp] theorem State.setResult_phase (s : State) (r : Reg) (b : Byte) (f : Bool) : (s.setResult r b f).phase = s.phase := rfl
@[simp] theorem State.setResult_mem (s : State) (r : Reg) (b : Byte) (f : Bool) : (s.setResult r b f).mem = s.mem := rfl
@[simp] theorem State.setResult_frame (s : State) (r : Reg) (b : Byte) (f : Bool) : (s.setResult r b f).frame = s.frame := rfl
@[simp] theorem State.setResult_randoms (s : State) (r : Reg) (b : Byte) (f : Bool) : (s.setResult r b f).randoms = s.randoms := rfl

/-! ### State.evalTone -/

@[simp] theorem State.evalTone_V (s : State) : s.evalTone.V = s.V := rfl
@[simp] theorem State.evalTone_I (s : State) : s.evalTone.I = s.I := rfl
@[simp] theorem State.evalTone_pc (s : State) : s.evalTone.pc = s.pc := rfl
@[simp] theorem State.evalTone_stack (s : State) : s.evalTone.stack = s.stack := rfl
@[simp] theorem State.evalTone_fb (s : State) : s.evalTone.fb = s.fb := rfl
@[simp] theorem State.evalTone_DT (s : State) : s.evalTone.DT = s.DT := rfl
@[simp] theorem State.evalTone_ST (s : State) : s.evalTone.ST = s.ST := rfl
@[simp] theorem State.evalTone_keyDown (s : State) : s.evalTone.keyDown = s.keyDown := rfl
@[simp] theorem State.evalTone_keyReleased (s : State) : s.evalTone.keyReleased = s.keyReleased := rfl
@[simp] theorem State.evalTone_tone (s : State) : s.evalTone.tone = decide (s.ST.toNat > 0) := rfl
@[simp] theorem State.evalTone_halt (s : State) : s.evalTone.halt = s.halt := rfl
@[simp] theorem State.evalTone_phase (s : State) : s.evalTone.phase = s.phase := rfl
@[simp] theorem State.evalTone_mem (s : State) : s.evalTone.mem = s.mem := rfl
@[simp] theorem State.evalTone_frame (s : State) : s.evalTone.frame = s.frame := rfl
@[simp] theorem State.evalTone_randoms (s : State) : s.evalTone.randoms = s.randoms := rfl

/-! ### sampleKeys -/

@[simp] theorem sampleKeys_V (s : State) : (sampleKeys s).V = s.V := rfl
@[simp] theorem sampleKeys_I (s : State) : (sampleKeys s).I = s.I := rfl
@[simp] theorem sampleKeys_pc (s : State) : (sampleKeys s).pc = s.pc := rfl
@[simp] theorem sampleKeys_stack (s : State) : (sampleKeys s).stack = s.stack := rfl
@[simp] theorem sampleKeys_fb (s : State) : (sampleKeys s).fb = s.fb := rfl
@[simp] theorem sampleKeys_DT (s : State) : (sampleKeys s).DT = s.DT := rfl
@[simp] theorem sampleKeys_ST (s : State) : (sampleKeys s).ST = s.ST := rfl
@[simp] theorem sampleKeys_keyDown (s : State) : (sampleKeys s).keyDown = Config.hostKeyDown s.frame := rfl
@[simp] theorem sampleKeys_keyReleased (s : State) : (sampleKeys s).keyReleased = Config.hostKeyReleased s.frame := rfl
@[simp] theorem sampleKeys_tone (s : State) : (sampleKeys s).tone = s.tone := rfl
@[simp] theorem sampleKeys_halt (s : State) : (sampleKeys s).halt = s.halt := rfl
@[simp] theorem sampleKeys_phase (s : State) : (sampleKeys s).phase = .countdown := rfl
@[simp] theorem sampleKeys_mem (s : State) : (sampleKeys s).mem = s.mem := rfl
@[simp] theorem sampleKeys_frame (s : State) : (sampleKeys s).frame = s.frame := rfl
@[simp] theorem sampleKeys_randoms (s : State) : (sampleKeys s).randoms = s.randoms := rfl

/-! ### countDown -/

@[simp] theorem countDown_V (s : State) : (countDown s).V = s.V := rfl
@[simp] theorem countDown_I (s : State) : (countDown s).I = s.I := rfl
@[simp] theorem countDown_pc (s : State) : (countDown s).pc = s.pc := rfl
@[simp] theorem countDown_stack (s : State) : (countDown s).stack = s.stack := rfl
@[simp] theorem countDown_fb (s : State) : (countDown s).fb = s.fb := rfl
@[simp] theorem countDown_DT (s : State) : (countDown s).DT = tick s.DT := rfl
@[simp] theorem countDown_ST (s : State) : (countDown s).ST = tick s.ST := rfl
@[simp] theorem countDown_keyDown (s : State) : (countDown s).keyDown = s.keyDown := rfl
@[simp] theorem countDown_keyReleased (s : State) : (countDown s).keyReleased = s.keyReleased := rfl
@[simp] theorem countDown_tone (s : State) : (countDown s).tone = s.tone := rfl
@[simp] theorem countDown_halt (s : State) : (countDown s).halt = s.halt := rfl
@[simp] theorem countDown_phase (s : State) : (countDown s).phase = .soundBefore := rfl
@[simp] theorem countDown_mem (s : State) : (countDown s).mem = s.mem := rfl
@[simp] theorem countDown_frame (s : State) : (countDown s).frame = s.frame := rfl
@[simp] theorem countDown_randoms (s : State) : (countDown s).randoms = s.randoms := rfl

/-! ### soundBefore -/

@[simp] theorem soundBefore_V (s : State) : (soundBefore s).V = s.V := rfl
@[simp] theorem soundBefore_I (s : State) : (soundBefore s).I = s.I := rfl
@[simp] theorem soundBefore_pc (s : State) : (soundBefore s).pc = s.pc := rfl
@[simp] theorem soundBefore_stack (s : State) : (soundBefore s).stack = s.stack := rfl
@[simp] theorem soundBefore_fb (s : State) : (soundBefore s).fb = s.fb := rfl
@[simp] theorem soundBefore_DT (s : State) : (soundBefore s).DT = s.DT := rfl
@[simp] theorem soundBefore_ST (s : State) : (soundBefore s).ST = s.ST := rfl
@[simp] theorem soundBefore_keyDown (s : State) : (soundBefore s).keyDown = s.keyDown := rfl
@[simp] theorem soundBefore_keyReleased (s : State) : (soundBefore s).keyReleased = s.keyReleased := rfl
@[simp] theorem soundBefore_tone (s : State) : (soundBefore s).tone = decide (s.ST.toNat > 0) := rfl
@[simp] theorem soundBefore_halt (s : State) : (soundBefore s).halt = s.halt := rfl
@[simp] theorem soundBefore_phase (s : State) : (soundBefore s).phase = .burst Config.burstMore := rfl
@[simp] theorem soundBefore_mem (s : State) : (soundBefore s).mem = s.mem := rfl
@[simp] theorem soundBefore_frame (s : State) : (soundBefore s).frame = s.frame := rfl
@[simp] theorem soundBefore_randoms (s : State) : (soundBefore s).randoms = s.randoms := rfl

/-! ### soundAfter -/

@[simp] theorem soundAfter_V (s : State) : (soundAfter s).V = s.V := rfl
@[simp] theorem soundAfter_I (s : State) : (soundAfter s).I = s.I := rfl
@[simp] theorem soundAfter_pc (s : State) : (soundAfter s).pc = s.pc := rfl
@[simp] theorem soundAfter_stack (s : State) : (soundAfter s).stack = s.stack := rfl
@[simp] theorem soundAfter_fb (s : State) : (soundAfter s).fb = s.fb := rfl
@[simp] theorem soundAfter_DT (s : State) : (soundAfter s).DT = s.DT := rfl
@[simp] theorem soundAfter_ST (s : State) : (soundAfter s).ST = s.ST := rfl
@[simp] theorem soundAfter_keyDown (s : State) : (soundAfter s).keyDown = s.keyDown := rfl
@[simp] theorem soundAfter_keyReleased (s : State) : (soundAfter s).keyReleased = s.keyReleased := rfl
@[simp] theorem soundAfter_tone (s : State) : (soundAfter s).tone = decide (s.ST.toNat > 0) := rfl
@[simp] theorem soundAfter_halt (s : State) : (soundAfter s).halt = s.halt := rfl
@[simp] theorem soundAfter_phase (s : State) : (soundAfter s).phase = .render := rfl
@[simp] theorem soundAfter_mem (s : State) : (soundAfter s).mem = s.mem := rfl
@[simp] theorem soundAfter_frame (s : State) : (soundAfter s).frame = s.frame := rfl
@[simp] theorem soundAfter_randoms (s : State) : (soundAfter s).randoms = s.randoms := rfl

/-! ### clearKeys -/

@[simp] theorem clearKeys_V (s : State) : (clearKeys s).V = s.V := rfl
@[simp] theorem clearKeys_I (s : State) : (clearKeys s).I = s.I := rfl
@[simp] theorem clearKeys_pc (s : State) : (clearKeys s).pc = s.pc := rfl
@[simp] theorem clearKeys_stack (s : State) : (clearKeys s).stack = s.stack := rfl
@[simp] theorem clearKeys_fb (s : State) : (clearKeys s).fb = s.fb := rfl
@[simp] theorem clearKeys_DT (s : State) : (clearKeys s).DT = s.DT := rfl
@[simp] theorem clearKeys_ST (s : State) : (clearKeys s).ST = s.ST := rfl
@[simp] theorem clearKeys_keyDown (s : State) : (clearKeys s).keyDown = none := rfl
@[simp] theorem clearKeys_keyReleased (s : State) : (clearKeys s).keyReleased = none := rfl
@[simp] theorem clearKeys_tone (s : State) : (clearKeys s).tone = s.tone := rfl
@[simp] theorem clearKeys_halt (s : State) : (clearKeys s).halt = s.halt := rfl
@[simp] theorem clearKeys_phase (s : State) : (clearKeys s).phase = .sample := rfl
@[simp] theorem clearKeys_mem (s : State) : (clearKeys s).mem = s.mem := rfl
@[simp] theorem clearKeys_frame (s : State) : (clearKeys s).frame = s.frame + 1 := rfl
@[simp] theorem clearKeys_randoms (s : State) : (clearKeys s).randoms = s.randoms := rfl

/-! ### State.skipIf -/

@[simp] theorem State.skipIf_V (s : State) (c : Bool) : (s.skipIf c).V = s.V := by cases c <;> rfl
@[simp] theorem State.skipIf_I (s : State) (c : Bool) : (s.skipIf c).I = s.I := by cases c <;> rfl
@[simp] theorem State.skipIf_pc (s : State) (c : Bool) :
    (s.skipIf c).pc = if c then s.pc + 2#16 else s.pc := by cases c <;> rfl
@[simp] theorem State.skipIf_stack (s : State) (c : Bool) : (s.skipIf c).stack = s.stack := by cases c <;> rfl
@[simp] theorem State.skipIf_fb (s : State) (c : Bool) : (s.skipIf c).fb = s.fb := by cases c <;> rfl
@[simp] theorem State.skipIf_DT (s : State) (c : Bool) : (s.skipIf c).DT = s.DT := by cases c <;> rfl
@[simp] theorem State.skipIf_ST (s : State) (c : Bool) : (s.skipIf c).ST = s.ST := by cases c <;> rfl
@[simp] theorem State.skipIf_keyDown (s : State) (c : Bool) : (s.skipIf c).keyDown = s.keyDown := by cases c <;> rfl
@[simp] theorem State.skipIf_keyReleased (s : State) (c : Bool) : (s.skipIf c).keyReleased = s.keyReleased := by cases c <;> rfl
@[simp] theorem State.skipIf_tone (s : State) (c : Bool) : (s.skipIf c).tone = s.tone := by cases c <;> rfl
@[simp] theorem State.skipIf_halt (s : State) (c : Bool) : (s.skipIf c).halt = s.halt := by cases c <;> rfl
@[simp] theorem State.skipIf_phase (s : State) (c : Bool) : (s.skipIf c).phase = s.phase := by cases c <;> rfl
@[simp] theorem State.skipIf_mem (s : State) (c : Bool) : (s.skipIf c).mem = s.mem := by cases c <;> rfl
@[simp] theorem State.skipIf_frame (s : State) (c : Bool) : (s.skipIf c).frame = s.frame := by cases c <;> rfl
@[simp] theorem State.skipIf_randoms (s : State) (c : Bool) : (s.skipIf c).randoms = s.randoms := by cases c <;> rfl

/-! ### renderFrame -/

@[simp] theorem renderFrame_V (s : State) : (renderFrame s).V = s.V := by
  unfold renderFrame; split <;> rfl
@[simp] theorem renderFrame_I (s : State) : (renderFrame s).I = s.I := by
  unfold renderFrame; split <;> rfl
@[simp] theorem renderFrame_pc (s : State) : (renderFrame s).pc = s.pc := by
  unfold renderFrame; split <;> rfl
@[simp] theorem renderFrame_stack (s : State) : (renderFrame s).stack = s.stack := by
  unfold renderFrame; split <;> rfl
@[simp] theorem renderFrame_fb (s : State) : (renderFrame s).fb = s.fb := by
  unfold renderFrame; split <;> rfl
@[simp] theorem renderFrame_DT (s : State) : (renderFrame s).DT = s.DT := by
  unfold renderFrame; split <;> rfl
@[simp] theorem renderFrame_ST (s : State) : (renderFrame s).ST = s.ST := by
  unfold renderFrame; split <;> rfl
@[simp] theorem renderFrame_keyDown (s : State) : (renderFrame s).keyDown = s.keyDown := by
  unfold renderFrame; split <;> rfl
@[simp] theorem renderFrame_keyReleased (s : State) : (renderFrame s).keyReleased = s.keyReleased := by
  unfold renderFrame; split <;> rfl
@[simp] theorem renderFrame_tone (s : State) : (renderFrame s).tone = s.tone := by
  unfold renderFrame; split <;> rfl
@[simp] theorem renderFrame_halt (s : State) :
    (renderFrame s).halt = if Config.hostStop s.frame then some .stopped else s.halt := by
  unfold renderFrame; split <;> rfl
@[simp] theorem renderFrame_phase (s : State) :
    (renderFrame s).phase = if Config.hostStop s.frame then s.phase else .clear := by
  unfold renderFrame; split <;> rfl
@[simp] theorem renderFrame_mem (s : State) : (renderFrame s).mem = s.mem := by
  unfold renderFrame; split <;> rfl
@[simp] theorem renderFrame_frame (s : State) : (renderFrame s).frame = s.frame := by
  unfold renderFrame; split <;> rfl
@[simp] theorem renderFrame_randoms (s : State) : (renderFrame s).randoms = s.randoms := by
  unfold renderFrame; split <;> rfl

/-! ### Reading a register after an update -/

/-- A register read depends on the register file alone. -/
theorem State.v_congr {s t : State} (h : s.V = t.V) (r : Reg) : s.v r = t.v r := by
  simp [State.v, h]

/-- A register after a register write: the written one holds the byte, every other is kept. -/
@[simp] theorem State.v_setV (s : State) (r q : Reg) (b : Byte) :
    (s.setV r b).v q = if q = r then b else s.v q := by
  simp only [State.v, State.setV, Vector.getElem_set, Fin.ext_iff, eq_comm]

@[simp] theorem State.v_advance (s : State) (r : Reg) : s.advance.v r = s.v r := rfl

@[simp] theorem State.v_skipIf (s : State) (c : Bool) (r : Reg) : (s.skipIf c).v r = s.v r :=
  State.v_congr (by simp) r

/-- A register after the flag is written. -/
@[simp] theorem State.v_setFlag (s : State) (f : Bool) (q : Reg) :
    (s.setFlag f).v q = if q = vf then flagByte f else s.v q :=
  State.v_setV s vf q (flagByte f)

/-- A register after result and flag are written: `VF` holds the flag whatever `x` is (R24). -/
@[simp] theorem State.v_setResult (s : State) (x q : Reg) (b : Byte) (f : Bool) :
    (s.setResult x b f).v q = if q = vf then flagByte f else if q = x then b else s.v q := by
  simp [State.setResult]

/-- Two register files are equal when every register reads the same. -/
theorem State.V_ext {s t : State} (h : ∀ r, s.v r = t.v r) : s.V = t.V :=
  Vector.ext fun i hi => h ⟨i, hi⟩

end Sys2Proof.Machine
end

