-- ==== Sys2Proof/Laws/Ops.lean ====
section
/-! SUPPORT. What the shared operations do, said once: the range check, the registers Fx55 stores and
Fx65 loads, fetching, and placing an instruction. -/

namespace Sys2Proof.Machine

/-- `pastEnd` in plain arithmetic. -/
theorem pastEnd_iff (base len : Nat) : pastEnd base len = true ↔ 1 ≤ len ∧ 4096 < base + len := by
  simp only [pastEnd, decide_eq_true_eq]
  omega

/-- Everything the range check does: the state it is given, or the fault with the highest address. -/
theorem checkRange_cases (s : State) (base len : Nat) (t : State) :
    (pastEnd base len = false ∧ checkRange s base len t = .next t) ∨
    (pastEnd base len = true ∧
      checkRange s base len t = .next (s.raise (.memOutOfRange (base + len - 1)))) := by
  cases h : pastEnd base len <;> simp [checkRange, h]

/-- In range the check lets the instruction complete. -/
theorem checkRange_of_le (s : State) {base len : Nat} (h : base + len ≤ 4096) (t : State) :
    checkRange s base len t = .next t := by
  have : pastEnd base len = false := by
    rw [Bool.eq_false_iff, ne_eq, pastEnd_iff]
    omega
  simp [checkRange, this]

/-- Out of range the check raises the fault with the highest address. -/
theorem checkRange_of_gt (s : State) {base len : Nat} (h1 : 1 ≤ len) (h : 4096 < base + len)
    (t : State) : checkRange s base len t = .next (s.raise (.memOutOfRange (base + len - 1))) := by
  simp [checkRange, (pastEnd_iff base len).2 ⟨h1, h⟩]

theorem State.length_regsUpTo (s : State) (x : Reg) : (s.regsUpTo x).length = x.val + 1 := by
  simp only [State.regsUpTo, List.length_take, Vector.length_toList]
  omega

/-- The bytes Fx55 stores are the registers from `V[0]` to `V[x]`. -/
theorem State.getElem_regsUpTo (s : State) (x r : Reg) (h : r ≤ x) :
    (s.regsUpTo x)[r.val]? = some (s.v r) := by
  have hr : r.val < x.val + 1 := Nat.lt_succ_of_le h
  simp only [State.regsUpTo, List.getElem?_take, hr, if_true, State.v]
  rw [List.getElem?_eq_getElem (by simp)]
  simp

/-- Loading a range of registers writes each from its address and keeps the others. -/
theorem getElem_loadRange (m : Memory) (base k : Nat) (V : Vector Byte 16) (i : Nat) (hi : i < 16) :
    ((List.range k).foldl (fun V i => V.setIfInBounds i (m.read (base + i))) V)[i] =
      if i < k then m.read (base + i) else V[i] := by
  induction k with
  | zero => simp
  | succ k ih =>
    rw [List.range_succ, List.foldl_append]
    simp only [List.foldl_cons, List.foldl_nil, Vector.getElem_setIfInBounds, ih]
    by_cases hk : k = i
    · subst hk; simp
    · rw [if_neg hk]
      by_cases h : i < k
      · rw [if_pos h, if_pos (by omega)]
      · rw [if_neg h, if_neg (by omega)]

/-- Register `r` after Fx65's load: `mem[base + r]` up to `x`, unchanged beyond (R145). -/
theorem getElem_loadUpTo (m : Memory) (base : Nat) (x r : Reg) (V : Vector Byte 16) :
    (loadUpTo m base x V)[r.val] = if r ≤ x then m.read (base + r.val) else V[r.val] := by
  rw [loadUpTo, getElem_loadRange]
  simp only [Nat.lt_succ_iff, Fin.le_def]

/-- The three bytes of Fx33. -/
theorem length_decimalDigits (v : Byte) : (decimalDigits v).length = 3 := rfl

/-- The digits of Fx33 as numbers. -/
theorem toNat_decimalDigits (v : Byte) :
    (decimalDigits v).map BitVec.toNat = [v.toNat / 100, v.toNat / 10 % 10, v.toNat % 10] := by
  have := v.isLt
  simp only [decimalDigits, List.map_cons, List.map_nil, BitVec.toNat_ofNat, List.cons.injEq, and_true]
  omega

/-- The glyph address of Fx29 as a number. -/
theorem toNat_glyphAddress (v : Byte) : (glyphAddress v).toNat = 5 * (v.toNat % 16) := by
  revert v; decide

/-- One tick takes a timer down by 1 and leaves one at 0. -/
theorem toNat_tick (b : Byte) : (tick b).toNat = b.toNat - 1 := by
  revert b; decide

/-- The flags of the two shifts as numbers. -/
theorem toNat_lowBit (b : Byte) : (flagByte (lowBit b)).toNat = b.toNat % 2 := by
  revert b; decide

theorem toNat_highBit (b : Byte) : (flagByte (highBit b)).toNat = b.toNat / 128 := by
  revert b; decide

/-- A flag is 0 or 1. -/
theorem flagByte_cases (c : Bool) : flagByte c = 0#8 ∨ flagByte c = 1#8 := by
  revert c; decide

/-- A fetch answers the two bytes at `pc`, exactly when `pc` is at most 4094. -/
theorem State.fetch_of_le (s : State) (h : s.pc.toNat ≤ 4094) :
    s.fetch = some [s.mem.read s.pc.toNat, s.mem.read (s.pc.toNat + 1)] := by
  simp [State.fetch, Nat.not_lt.2 h]

theorem State.fetch_of_gt (s : State) (h : 4094 < s.pc.toNat) : s.fetch = none := by
  simp [State.fetch, h]

/-! ## Construction -/

/-- Loading any font and ROM gives a memory in canonical form. -/
theorem Memory.load_wf (font : Vector Byte 80) (rom : List Byte) : Memory.wf (Memory.load font rom) :=
  Memory.storeBytes_wf _ _ (Memory.storeBytes_wf _ _ Memory.reset_wf)

/-- Everything construction does: the loaded machine, or the refusal of a ROM that is too long. -/
theorem State.construct_cases (font : Vector Byte 80) (rom : List Byte) :
    (rom.length ≤ 3584 ∧ State.construct font rom = .next { State.reset with mem := Memory.load font rom }) ∨
    (3584 < rom.length ∧ State.construct font rom = .refused (.romTooLong rom.length)) := by
  unfold State.construct
  split
  · exact .inl ⟨‹_›, rfl⟩
  · exact .inr ⟨Nat.lt_of_not_le ‹_›, rfl⟩

/-- Storing what unlisted addresses read as lists nothing. -/
theorem Memory.storeBytes_resetByte (base : Nat) (bs : List Byte)
    (h : ∀ i b, bs[i]? = some b → b = Memory.resetByte (base + i)) : Memory.storeBytes [] base bs = [] := by
  induction bs generalizing base with
  | nil => rfl
  | cons b rest ih =>
    have hw : Memory.write [] base b = [] := by
      simp only [Memory.write, h 0 b rfl, Nat.add_zero, Memory.erase, if_true, ite_self]
    rw [Memory.storeBytes, hw]
    exact ih (base + 1) fun i c hc => by rw [h (i + 1) c hc, Nat.add_right_comm, Nat.add_assoc]

/-- The default font and the empty ROM give `State.reset`. -/
theorem State.construct_default : State.construct Config.defaultFont [] = .next State.reset := by
  have h : Memory.storeBytes [] 0 Config.font = [] := Memory.storeBytes_resetByte 0 _ fun i b hb => by
    rw [Nat.zero_add, Memory.resetByte, hb]; rfl
  have hf : Config.defaultFont.toList = Config.font := by simp only [Config.defaultFont, Vector.toList]
  have hl : Memory.load Config.defaultFont [] = State.reset.mem := by
    rw [Memory.load, Memory.storeBytes, hf]
    exact h
  unfold State.construct
  split
  · rw [hl]
  · exact absurd (Nat.zero_le _) ‹_›

/-- A placed instruction can be fetched. -/
theorem State.placeInstruction_pc (s : State) (bytes : List Byte) :
    (s.placeInstruction bytes).pc.toNat ≤ 4094 := by
  simp only [State.placeInstruction]
  split
  · decide
  · omega

theorem State.placeInstruction_halt (s : State) (bytes : List Byte) :
    (s.placeInstruction bytes).halt = none := rfl

theorem State.placeInstruction_phase (s : State) (bytes : List Byte) :
    ∃ more, (s.placeInstruction bytes).phase = .burst more := by
  cases h : s.phase <;> simp [State.placeInstruction, h]

/-- A placed instruction is what the next fetch reads. -/
theorem State.fetch_placeInstruction (s : State) (hm : Memory.wf s.mem) (hi lo : Byte) :
    (s.placeInstruction [hi, lo]).fetch = some [hi, lo] := by
  have hpc := s.placeInstruction_pc [hi, lo]
  rw [State.fetch_of_le _ hpc]
  have hmem : (s.placeInstruction [hi, lo]).mem =
      s.mem.storeBytes (s.placeInstruction [hi, lo]).pc.toNat [hi, lo] := rfl
  rw [hmem, Memory.read_storeBytes hm _ _ (by simp; omega),
    Memory.read_storeBytes hm _ _ (by simp; omega)]
  simp

end Sys2Proof.Machine
end

