-- ==== Sys2Proof/Laws/Exec.lean ====
section
/-! SUPPORT. What every instruction does, said once over the dispatch: it answers a next state, leaves
the sequencer's state to the sequencer, and keeps the canonical form of memory. -/

namespace Sys2Proof.Machine

/-- The range check answers one of two states. -/
theorem checkRange_next {s t u : State} {base len : Nat} (h : checkRange s base len t = .next u) :
    u = t ∨ u = s.raise (.memOutOfRange (base + len - 1)) := by
  rcases checkRange_cases s base len t with ⟨-, he⟩ | ⟨-, he⟩ <;>
    (rw [he] at h; injection h with h; simp [h])

/-- Every instruction answers a next state, never a fault or a refusal of the interface. -/
theorem exec_total (i : Instr) (s : State) : ∃ t, exec i s = .next t := by
  have check : ∀ base len t, ∃ u, checkRange s base len t = .next u := fun base len t => by
    rcases checkRange_cases s base len t with ⟨-, he⟩ | ⟨-, he⟩ <;> exact ⟨_, he⟩
  cases i <;> first
    | exact ⟨_, rfl⟩
    | exact check _ _ _
    | (simp only [exec, execRet, execCall, execLdVxK]; split <;> exact ⟨_, rfl⟩)

/-- No instruction writes the key snapshot (R34), `tone` (R35), the position of the sequencer or the
model's counter of frames. -/
theorem exec_keeps {i : Instr} {s t : State} (h : exec i s = .next t) :
    t.keyDown = s.keyDown ∧ t.keyReleased = s.keyReleased ∧ t.tone = s.tone ∧ t.phase = s.phase ∧
    t.frame = s.frame := by
  cases i <;> first
    | (injection h with h; subst h; simp)
    | (rcases checkRange_next h with rfl | rfl <;> simp)
    | (simp only [exec, execRet, execCall, execLdVxK] at h
       split at h <;> (injection h with h; subst h; simp))

/-- Every instruction keeps the canonical form of memory. -/
theorem exec_wf {i : Instr} {s t : State} (hm : Memory.wf s.mem) (h : exec i s = .next t) :
    Memory.wf t.mem := by
  cases i <;> first
    | (injection h with h; subst h; simpa using hm)
    | (rcases checkRange_next h with rfl | rfl <;> first | exact hm | exact Memory.storeBytes_wf _ _ hm)
    | (simp only [exec, execRet, execCall, execLdVxK] at h
       split at h <;> (injection h with h; subst h; simpa using hm))

end Sys2Proof.Machine
end

