-- ==== Sys2Proof/Laws/PerInstr.lean ====
section
/-! SUPPORT. The statements made for every instruction, one lemma per constructor. EncodesRow: the
encoder gives a well-formed instruction the fixed bits of its row of the opcode map
(spec/30_encoding.md R80). -/

namespace Sys2Proof.Laws.EncodesRow

/-- The word of a well-formed instruction selects the instruction's own row: `op & mask = match`. -/
def Statement (i : Instr) : Prop := i.WellFormed → encodeWord i &&& i.row.mask = i.row.fixed

theorem cls : Statement (.cls) := fun _ => by
  rw [encodeWord, Instr.row, and_mask_top_nn, topNibble_formatXNN, nnField_formatXNN]; decide

theorem ret : Statement (.ret) := fun _ => by
  rw [encodeWord, Instr.row, and_mask_top_nn, topNibble_formatXNN, nnField_formatXNN]; decide

theorem jp (nnn : Word) : Statement (.jp nnn) := fun _ => by
  rw [encodeWord, Instr.row, and_mask_top, topNibble_formatNNN]; decide

theorem call (nnn : Word) : Statement (.call nnn) := fun _ => by
  rw [encodeWord, Instr.row, and_mask_top, topNibble_formatNNN]; decide

theorem seImm (x : Reg) (nn : Byte) : Statement (.seImm x nn) := fun _ => by
  rw [encodeWord, Instr.row, and_mask_top, topNibble_formatXNN]; decide

theorem sneImm (x : Reg) (nn : Byte) : Statement (.sneImm x nn) := fun _ => by
  rw [encodeWord, Instr.row, and_mask_top, topNibble_formatXNN]; decide

theorem seReg (x : Reg) (y : Reg) : Statement (.seReg x y) := fun _ => by
  rw [encodeWord, Instr.row, and_mask_top, topNibble_formatXYN]; decide

theorem ldImm (x : Reg) (nn : Byte) : Statement (.ldImm x nn) := fun _ => by
  rw [encodeWord, Instr.row, and_mask_top, topNibble_formatXNN]; decide

theorem addImm (x : Reg) (nn : Byte) : Statement (.addImm x nn) := fun _ => by
  rw [encodeWord, Instr.row, and_mask_top, topNibble_formatXNN]; decide

theorem ldReg (x : Reg) (y : Reg) : Statement (.ldReg x y) := fun _ => by
  rw [encodeWord, Instr.row, and_mask_top_n, topNibble_formatXYN, nField_formatXYN]; decide

theorem orReg (x : Reg) (y : Reg) : Statement (.orReg x y) := fun _ => by
  rw [encodeWord, Instr.row, and_mask_top_n, topNibble_formatXYN, nField_formatXYN]; decide

theorem andReg (x : Reg) (y : Reg) : Statement (.andReg x y) := fun _ => by
  rw [encodeWord, Instr.row, and_mask_top_n, topNibble_formatXYN, nField_formatXYN]; decide

theorem xorReg (x : Reg) (y : Reg) : Statement (.xorReg x y) := fun _ => by
  rw [encodeWord, Instr.row, and_mask_top_n, topNibble_formatXYN, nField_formatXYN]; decide

theorem addReg (x : Reg) (y : Reg) : Statement (.addReg x y) := fun _ => by
  rw [encodeWord, Instr.row, and_mask_top_n, topNibble_formatXYN, nField_formatXYN]; decide

theorem subReg (x : Reg) (y : Reg) : Statement (.subReg x y) := fun _ => by
  rw [encodeWord, Instr.row, and_mask_top_n, topNibble_formatXYN, nField_formatXYN]; decide

theorem shr (x : Reg) (y : Reg) : Statement (.shr x y) := fun _ => by
  rw [encodeWord, Instr.row, and_mask_top_n, topNibble_formatXYN, nField_formatXYN]; decide

theorem subnReg (x : Reg) (y : Reg) : Statement (.subnReg x y) := fun _ => by
  rw [encodeWord, Instr.row, and_mask_top_n, topNibble_formatXYN, nField_formatXYN]; decide

theorem shl (x : Reg) (y : Reg) : Statement (.shl x y) := fun _ => by
  rw [encodeWord, Instr.row, and_mask_top_n, topNibble_formatXYN, nField_formatXYN]; decide

theorem sneReg (x : Reg) (y : Reg) : Statement (.sneReg x y) := fun _ => by
  rw [encodeWord, Instr.row, and_mask_top, topNibble_formatXYN]; decide

theorem ldI (nnn : Word) : Statement (.ldI nnn) := fun _ => by
  rw [encodeWord, Instr.row, and_mask_top, topNibble_formatNNN]; decide

theorem jpV0 (nnn : Word) : Statement (.jpV0 nnn) := fun _ => by
  rw [encodeWord, Instr.row, and_mask_top, topNibble_formatNNN]; decide

theorem rnd (x : Reg) (nn : Byte) : Statement (.rnd x nn) := fun _ => by
  rw [encodeWord, Instr.row, and_mask_top, topNibble_formatXNN]; decide

theorem drw (x : Reg) (y : Reg) (n : Nat) : Statement (.drw x y n) := fun _ => by
  rw [encodeWord, Instr.row, and_mask_top, topNibble_formatXYN]; decide

theorem skp (x : Reg) : Statement (.skp x) := fun _ => by
  rw [encodeWord, Instr.row, and_mask_top_nn, topNibble_formatXNN, nnField_formatXNN]; decide

theorem sknp (x : Reg) : Statement (.sknp x) := fun _ => by
  rw [encodeWord, Instr.row, and_mask_top_nn, topNibble_formatXNN, nnField_formatXNN]; decide

theorem ldVxDt (x : Reg) : Statement (.ldVxDt x) := fun _ => by
  rw [encodeWord, Instr.row, and_mask_top_nn, topNibble_formatXNN, nnField_formatXNN]; decide

theorem ldVxK (x : Reg) : Statement (.ldVxK x) := fun _ => by
  rw [encodeWord, Instr.row, and_mask_top_nn, topNibble_formatXNN, nnField_formatXNN]; decide

theorem ldDtVx (x : Reg) : Statement (.ldDtVx x) := fun _ => by
  rw [encodeWord, Instr.row, and_mask_top_nn, topNibble_formatXNN, nnField_formatXNN]; decide

theorem ldStVx (x : Reg) : Statement (.ldStVx x) := fun _ => by
  rw [encodeWord, Instr.row, and_mask_top_nn, topNibble_formatXNN, nnField_formatXNN]; decide

theorem addI (x : Reg) : Statement (.addI x) := fun _ => by
  rw [encodeWord, Instr.row, and_mask_top_nn, topNibble_formatXNN, nnField_formatXNN]; decide

theorem ldF (x : Reg) : Statement (.ldF x) := fun _ => by
  rw [encodeWord, Instr.row, and_mask_top_nn, topNibble_formatXNN, nnField_formatXNN]; decide

theorem ldB (x : Reg) : Statement (.ldB x) := fun _ => by
  rw [encodeWord, Instr.row, and_mask_top_nn, topNibble_formatXNN, nnField_formatXNN]; decide

theorem storeRegs (x : Reg) : Statement (.storeRegs x) := fun _ => by
  rw [encodeWord, Instr.row, and_mask_top_nn, topNibble_formatXNN, nnField_formatXNN]; decide

theorem loadRegs (x : Reg) : Statement (.loadRegs x) := fun _ => by
  rw [encodeWord, Instr.row, and_mask_top_nn, topNibble_formatXNN, nnField_formatXNN]; decide

end Sys2Proof.Laws.EncodesRow
end

