-- ==== Sys2Proof/Laws/Safety.lean ====
section
/-! SUPPORT. The terms of Sys2Proof/Safety.lean, each reduced once to what the meanings are written in:
a row of the opcode map by its dispatch keys, a sprite by its rows on the screen, a key wait by the
latched key, and what one register write changes. -/

namespace Sys2Proof.Machine

/-! ## Rows of the opcode map -/

/-- A row selected by the top nibble alone. -/
theorem decodesOn_top {fixed : Word} {f : Word → Instr}
    (h : ∀ w : Word, w.topNibble = fixed.topNibble → decodeWord w = .instr (f w)) :
    DecodesOn 0xF000#16 fixed f :=
  fun w hw => h w (topNibble_of_mask (by decide) hw)

/-- A row selected by the top and the low nibble. -/
theorem decodesOn_top_n {fixed : Word} {f : Word → Instr}
    (h : ∀ w : Word, w.topNibble = fixed.topNibble → w.nField = fixed.nField →
      decodeWord w = .instr (f w)) :
    DecodesOn 0xF00F#16 fixed f :=
  fun w hw => h w (topNibble_of_mask (by decide) hw) (nField_of_mask (by decide) hw)

/-- A row selected by the top nibble and the low byte. -/
theorem decodesOn_top_nn {fixed : Word} {f : Word → Instr}
    (h : ∀ w : Word, w.topNibble = fixed.topNibble → w.nnField = fixed.nnField →
      decodeWord w = .instr (f w)) :
    DecodesOn 0xF0FF#16 fixed f :=
  fun w hw => h w (topNibble_of_mask (by decide) hw) (nnField_of_mask (by decide) hw)

/-! ## Sprites -/

/-- The pixels a draw covers are those of its rows on the screen, the ones the meaning of Dxyn reads. -/
theorem State.draws_iff (s : State) (x y : Reg) (n r c : Nat) :
    s.draws x y n r c ↔
      spriteCovers s.mem s.I.toNat (s.spriteColumn x) (s.spriteRow y) (visibleRows n (s.spriteRow y)) r c := by
  unfold State.draws spriteCovers visibleRows State.spriteColumn State.spriteRow
  constructor <;> (rintro ⟨a, b, c, d⟩; exact ⟨a, by omega, c, d⟩)

/-- The rows Dxyn draws end on the screen. -/
theorem spriteRow_add_visibleRows_le (s : State) (y : Reg) (n : Nat) :
    s.spriteRow y + visibleRows n (s.spriteRow y) ≤ 32 := by
  unfold visibleRows State.spriteRow; omega

/-! ## The key wait -/

/-- Fx0A waits exactly when there is no key to latch. -/
theorem State.waitsForKey_iff (s : State) : s.waitsForKey ↔ s.latchedKey = none := by
  unfold State.waitsForKey State.latchedKey
  constructor
  · intro h
    split
    · rename_i he
      cases hk : s.keyDown with
      | none => rfl
      | some k => exact absurd ⟨k, hk, he ▸ hk⟩ h
    · rfl
  · rintro h ⟨k, h1, h2⟩
    simp [h1, h2] at h

/-! ## One register write -/

/-- Writing one register after the fetch's increment changes only it and `pc`. -/
theorem onlyRegisters_setV (s : State) (x : Reg) (b : Byte) :
    OnlyRegisters (· = x) s (s.advance.setV x b) :=
  ⟨rfl, fun r h => by simp [h], fun _ => rfl⟩

/-- Writing a result and the flag after the fetch's increment changes only the two and `pc`. -/
theorem onlyRegisters_setResult (s : State) (x : Reg) (b : Byte) (f : Bool) :
    OnlyRegisters (fun r => r = x ∨ r = vf) s (s.advance.setResult x b f) :=
  ⟨rfl, fun r h => by simp only [not_or] at h; simp [h.1, h.2], fun _ => rfl⟩

end Sys2Proof.Machine
end

