-- ==== Sys2Proof/Laws/Step.lean ====
section
/-! SUPPORT. What a step can do, said once: the instruction step and the step of the machine, by cases,
and what the ending of an instruction step does to the position. -/

namespace Sys2Proof.Machine

/-- Everything an instruction step does: a fetch fault, a no-operation, or the decoded instruction. -/
theorem instrStep_cases (s : State) :
    (4094 < s.pc.toNat ∧ instrStep s = .next (s.raise (.fetchOutOfRange s.pc.toNat))) ∨
    (∃ why, s.pc.toNat ≤ 4094 ∧ decodeWord s.word = .miss why ∧ instrStep s = .next s.advance) ∨
    (∃ i, s.executes i ∧ i.WellFormed ∧ instrStep s = exec i s) := by
  by_cases h : s.pc.toNat ≤ 4094
  · right
    have he : instrStep s = match decodeWord s.word with
        | .instr i => exec i s
        | .miss _ => decodeMiss s := by
      rw [instrStep, State.fetch_of_le s h]
      rfl
    cases hd : decodeWord s.word with
    | instr i => exact .inr ⟨i, ⟨h, hd⟩, wellFormed_of_decodeWord hd, by rw [he, hd]⟩
    | miss why => exact .inl ⟨why, h, rfl, by rw [he, hd]; rfl⟩
  · exact .inl ⟨by omega, by rw [instrStep, State.fetch_of_gt s (by omega)]; rfl⟩

theorem instrStep_of_executes {s : State} {i : Instr} (h : s.executes i) : instrStep s = exec i s := by
  rw [instrStep, State.fetch_of_le s h.1]
  show (match decodeWord s.word with | .instr i => exec i s | .miss _ => decodeMiss s) = _
  rw [h.2]

/-- The ending of an instruction step that answers a next state: kept whole if it halted, else moved to
the next position. -/
theorem endInstr_next (more : Nat) (t : State) :
    endInstr more (.next t) =
      .next (if t.halt.isSome then t else { t with phase := .afterInstr more }) := by
  simp only [endInstr]
  split <;> simp_all

/-- A step of the machine at each position. -/
theorem step_of_halted {s : State} (h : s.halt ≠ none) : step s = .next s := by
  unfold step
  split
  · rfl
  · exact absurd ‹_› h

theorem step_of_burst {s : State} {more : Nat} (hh : s.halt = none) (hp : s.phase = .burst more) :
    step s = endInstr more (instrStep s) := by simp [step, hh, hp]

theorem step_of_sample {s : State} (hh : s.halt = none) (hp : s.phase = .sample) :
    step s = .next (sampleKeys s) := by simp [step, hh, hp]

theorem step_of_countdown {s : State} (hh : s.halt = none) (hp : s.phase = .countdown) :
    step s = .next (countDown s) := by simp [step, hh, hp]

theorem step_of_soundBefore {s : State} (hh : s.halt = none) (hp : s.phase = .soundBefore) :
    step s = .next (soundBefore s) := by simp [step, hh, hp]

theorem step_of_soundAfter {s : State} (hh : s.halt = none) (hp : s.phase = .soundAfter) :
    step s = .next (soundAfter s) := by simp [step, hh, hp]

theorem step_of_render {s : State} (hh : s.halt = none) (hp : s.phase = .render) :
    step s = .next (renderFrame s) := by simp [step, hh, hp]

theorem step_of_clear {s : State} (hh : s.halt = none) (hp : s.phase = .clear) :
    step s = .next (clearKeys s) := by simp [step, hh, hp]

/-- Everything a step of the machine does. -/
theorem step_cases (s : State) :
    (s.halt ≠ none ∧ step s = .next s) ∨
    (s.halt = none ∧
      ((s.phase = .sample ∧ step s = .next (sampleKeys s)) ∨
       (s.phase = .countdown ∧ step s = .next (countDown s)) ∨
       (s.phase = .soundBefore ∧ step s = .next (soundBefore s)) ∨
       (∃ more, s.phase = .burst more ∧ step s = endInstr more (instrStep s)) ∨
       (s.phase = .soundAfter ∧ step s = .next (soundAfter s)) ∨
       (s.phase = .render ∧ step s = .next (renderFrame s)) ∨
       (s.phase = .clear ∧ step s = .next (clearKeys s)))) := by
  by_cases hh : s.halt = none
  · refine .inr ⟨hh, ?_⟩
    cases hp : s.phase with
    | sample => exact .inl ⟨rfl, step_of_sample hh hp⟩
    | countdown => exact .inr (.inl ⟨rfl, step_of_countdown hh hp⟩)
    | soundBefore => exact .inr (.inr (.inl ⟨rfl, step_of_soundBefore hh hp⟩))
    | burst more => exact .inr (.inr (.inr (.inl ⟨more, rfl, step_of_burst hh hp⟩)))
    | soundAfter => exact .inr (.inr (.inr (.inr (.inl ⟨rfl, step_of_soundAfter hh hp⟩))))
    | render => exact .inr (.inr (.inr (.inr (.inr (.inl ⟨rfl, step_of_render hh hp⟩)))))
    | clear => exact .inr (.inr (.inr (.inr (.inr (.inr ⟨rfl, step_of_clear hh hp⟩)))))
  · exact .inl ⟨hh, step_of_halted hh⟩

/-- A run of one more step goes on from the state the first step answers. -/
theorem Core.run_succ {M : Host.Core} {s t : M.State} (h : M.step s = .next t) (k : Nat) :
    M.run (k + 1) s = M.run k t := by
  rw [Host.Core.run, h]

theorem run_succ {s t : State} (h : step s = .next t) (k : Nat) : core.run (k + 1) s = core.run k t :=
  Core.run_succ (M := core) h k

/-- A placed table word is what the very next step decodes, from every state whose memory is in
canonical form. -/
theorem instrStep_withFetchWord (s : State) (hm : Memory.wf s.mem) (w : Nat) :
    instrStep (s.withFetchWord 16 w) = match decodeTableWord 16 w with
      | some i => exec i (s.withFetchWord 16 w)
      | none => decodeMiss (s.withFetchWord 16 w) := by
  unfold instrStep State.withFetchWord decodeTableWord tableBytes bytesOfWord
  rw [State.fetch_placeInstruction s hm]
  dsimp only [decode]
  cases decodeWord (wordOfBytes _ _) <;> rfl

end Sys2Proof.Machine
end

