-- ==== Sys2Proof/Tests/Slice0.lean ====
section
/-! SUPPORT. The model's own tests: ill-formed terms that WellFormed refuses, every constructor decoded
from a word written out bit by bit (spec/30_encoding.md R73, R80), single steps with the results of
spec/95_test_vectors.md (the vector's name stands with each), and for every obligation with hypotheses
a state and operands that meet them. -/

namespace Sys2Proof.Tests

open Sys2Proof.Machine

/-! ## Helpers -/

/-- The vectors' "before" state: reset, with an instruction step next. -/
def start : State := { State.reset with phase := .burst 0 }

/-- Registers set as a vector's "before" column says. -/
def withV (s : State) (vs : List (Reg × Byte)) : State := vs.foldl (fun s p => s.setV p.1 p.2) s

/-- Some fields of the state after one step that runs the word `w` placed at `pc`. -/
def after {α : Type} (s : State) (w : Word) (view : State → α) : Option α :=
  match step (s.withFetchWord 16 w.toNat) with
  | .next t => some (view t)
  | .fault _ => none
  | .refused _ => none

/-- The lit pixels in the rows and columns of a window, in row-major order. -/
def lit (fb : FrameBuffer) (r0 rows c0 cols : Nat) : List (Nat × Nat) :=
  ((List.range' r0 rows).flatMap fun r => (List.range' c0 cols).map fun c => (r, c)).filter
    fun p => fb.get p.1 p.2

/-! ## WellFormed refuses -/

theorem test_wellFormed_refuses :
    (Instr.jp 0x1000#16).wellFormed = false ∧ (Instr.call 0x1000#16).wellFormed = false ∧
    (Instr.ldI 0xF000#16).wellFormed = false ∧ (Instr.jpV0 0x8FFF#16).wellFormed = false ∧
    (Instr.drw 0 0 16).wellFormed = false := by decide

theorem test_wellFormed_admits :
    (Instr.jp 0xFFF#16).wellFormed = true ∧ (Instr.drw 15 15 15).wellFormed = true := by decide

/-! ## Decoding -/

/-- R52: the byte at the lower address is the high one. -/
theorem test_decode_bytes : decode [0x12#8, 0x34#8, 0xFF#8] = (.instr (.jp 0x234#16), [0xFF#8]) := by decide

theorem test_decode_truncated : decode [0x12#8] = (.miss .truncated, [0x12#8]) := by decide

theorem test_decode_control :
    decodeWord 0b0000000011101110#16 = .instr .ret ∧
    decodeWord 0b0001001000110100#16 = .instr (.jp 0x234#16) ∧
    decodeWord 0b0010111111111111#16 = .instr (.call 0xFFF#16) ∧
    decodeWord 0b0011101000101010#16 = .instr (.seImm 10 0x2A#8) ∧
    decodeWord 0b0100000110000000#16 = .instr (.sneImm 1 0x80#8) ∧
    decodeWord 0b0101101010110000#16 = .instr (.seReg 10 11) ∧
    decodeWord 0b1001101010110000#16 = .instr (.sneReg 10 11) ∧
    decodeWord 0b1011001100000000#16 = .instr (.jpV0 0x300#16) := by decide

theorem test_decode_alu :
    decodeWord 0b0110101001111111#16 = .instr (.ldImm 10 0x7F#8) ∧
    decodeWord 0b0111000000000101#16 = .instr (.addImm 0 0x05#8) ∧
    decodeWord 0b1000000100100000#16 = .instr (.ldReg 1 2) ∧
    decodeWord 0b1000000100100001#16 = .instr (.orReg 1 2) ∧
    decodeWord 0b1000000100100010#16 = .instr (.andReg 1 2) ∧
    decodeWord 0b1000000100100011#16 = .instr (.xorReg 1 2) ∧
    decodeWord 0b1000000100100100#16 = .instr (.addReg 1 2) ∧
    decodeWord 0b1000000100100101#16 = .instr (.subReg 1 2) ∧
    decodeWord 0b1000101010110110#16 = .instr (.shr 10 11) ∧
    decodeWord 0b1000000100100111#16 = .instr (.subnReg 1 2) ∧
    decodeWord 0b1000000100101110#16 = .instr (.shl 1 2) ∧
    decodeWord 0b1100001100001111#16 = .instr (.rnd 3 0x0F#8) := by decide

theorem test_decode_index_display :
    decodeWord 0b1010001011110000#16 = .instr (.ldI 0x2F0#16) ∧
    decodeWord 0b1111000100011110#16 = .instr (.addI 1) ∧
    decodeWord 0b1111010000101001#16 = .instr (.ldF 4) ∧
    decodeWord 0b1111001000110011#16 = .instr (.ldB 2) ∧
    decodeWord 0b1111111101010101#16 = .instr (.storeRegs 15) ∧
    decodeWord 0b1111000101100101#16 = .instr (.loadRegs 1) ∧
    decodeWord 0b0000000011100000#16 = .instr .cls ∧
    decodeWord 0b1101000100101111#16 = .instr (.drw 1 2 15) := by decide

theorem test_decode_keys_timers :
    decodeWord 0b1110000110011110#16 = .instr (.skp 1) ∧
    decodeWord 0b1110000110100001#16 = .instr (.sknp 1) ∧
    decodeWord 0b1111001100000111#16 = .instr (.ldVxDt 3) ∧
    decodeWord 0b1111001100001010#16 = .instr (.ldVxK 3) ∧
    decodeWord 0b1111000000010101#16 = .instr (.ldDtVx 0) ∧
    decodeWord 0b1111000000011000#16 = .instr (.ldStVx 0) := by decide

/-- E5, E6, E10, E11: don't-care bits (R79, D7). -/
theorem test_decode_dont_cares :
    decodeWord 0x02E0#16 = .instr .cls ∧ decodeWord 0x0FEE#16 = .instr .ret ∧
    decodeWord 0x5AB7#16 = .instr (.seReg 10 11) ∧ decodeWord 0x9AB1#16 = .instr (.sneReg 10 11) := by decide

/-- E2 to E4, E8, E9, E12, E14, E15, E17 to E19: the four classes of decode misses. -/
theorem test_decode_misses :
    decodeWord 0x0000#16 = .miss (.zeroKey 0x00#8) ∧ decodeWord 0x0123#16 = .miss (.zeroKey 0x23#8) ∧
    decodeWord 0x8008#16 = .miss (.eightKey 0x8#4) ∧ decodeWord 0x800F#16 = .miss (.eightKey 0xF#4) ∧
    decodeWord 0xE000#16 = .miss (.keypadKey 0x00#8) ∧ decodeWord 0xE1A2#16 = .miss (.keypadKey 0xA2#8) ∧
    decodeWord 0xF175#16 = .miss (.miscKey 0x75#8) ∧ decodeWord 0xF01F#16 = .miss (.miscKey 0x1F#8) ∧
    decodeWord 0xFFFF#16 = .miss (.miscKey 0xFF#8) := by decide

theorem test_decodeTableWord :
    decodeTableWord 16 0xD12F = some (.drw 1 2 15) ∧ decodeTableWord 16 0xF01F = none := by decide

/-! ## Control transfer -/

/-- C3. -/
theorem test_ret : after { start with pc := 0x210#16, stack := [0x206#16, 0x30A#16] } 0x00EE#16
    (fun t => (t.pc, t.stack)) = some (0x30A#16, [0x206#16]) := by decide

/-- C4. -/
theorem test_ret_empty : after { start with pc := 0x210#16 } 0x00EE#16
    (fun t => (t.halt, t.pc, t.phase)) =
      some (some (.fault .stackUnderflow 0x210#16), 0x210#16, .burst 0) := by decide

/-- C7. -/
theorem test_jp_self : after { start with pc := 0x202#16 } 0x1202#16 (fun t => t.pc) =
    some 0x202#16 := by decide

/-- C11: the return address 4096 is pushed without a check. -/
theorem test_call_top : after { start with pc := 0xFFE#16 } 0x2300#16 (fun t => (t.stack, t.pc)) =
    some ([0x1000#16], 0x300#16) := by decide

/-- C10. -/
theorem test_call_full : after { start with pc := 0x204#16, stack := List.replicate 16 0x206#16 } 0x2300#16
    (fun t => (t.halt, t.stack.length, t.pc)) =
      some (some (.fault .stackOverflow 0x204#16), 16, 0x204#16) := by decide

/-- C12. -/
theorem test_seImm : after (withV { start with pc := 0x300#16 } [(3, 0x2A#8)]) 0x332A#16 (fun t => t.pc) =
    some 0x304#16 := by decide

/-- C13. -/
theorem test_seImm_not : after (withV { start with pc := 0x300#16 } [(3, 0x2B#8)]) 0x332A#16
    (fun t => t.pc) = some 0x302#16 := by decide

/-- C15. -/
theorem test_sneImm : after start 0x4001#16 (fun t => t.pc) = some 0x204#16 := by decide

/-- C16. -/
theorem test_sneImm_not : after start 0x4000#16 (fun t => t.pc) = some 0x202#16 := by decide

/-- C20: a non-canonical word. -/
theorem test_seReg : after (withV start [(1, 5#8), (2, 5#8)]) 0x5127#16 (fun t => t.pc) =
    some 0x204#16 := by decide

/-- C18. -/
theorem test_seReg_not : after (withV start [(1, 5#8), (2, 6#8)]) 0x5120#16 (fun t => t.pc) =
    some 0x202#16 := by decide

/-- C21. -/
theorem test_sneReg : after (withV start [(1, 5#8), (2, 6#8)]) 0x9120#16 (fun t => t.pc) =
    some 0x204#16 := by decide

/-- C23. -/
theorem test_sneReg_same : after (withV start [(3, 9#8)]) 0x9330#16 (fun t => t.pc) =
    some 0x202#16 := by decide

/-- C25: no wrap to 12 bits. -/
theorem test_jpV0 : after (withV start [(0, 0xFF#8)]) 0xBFFF#16 (fun t => t.pc) =
    some 0x10FE#16 := by decide

/-! ## Arithmetic and logic -/

/-- A2: VF is an ordinary destination here. -/
theorem test_ldImm : after start 0x6F01#16 (fun t => (t.v vf, t.pc)) = some (1#8, 0x202#16) := by
  decide

/-- A3: no flag. -/
theorem test_addImm : after (withV start [(0, 0xFE#8), (15, 1#8)]) 0x7005#16 (fun t => (t.v 0, t.v vf)) =
    some (0x03#8, 1#8) := by decide

/-- A7. -/
theorem test_ldReg : after (withV start [(2, 9#8)]) 0x8120#16 (fun t => (t.v 1, t.v 2)) =
    some (9#8, 9#8) := by decide

/-- A9. -/
theorem test_orReg : after (withV start [(1, 0xF0#8), (2, 0x0F#8), (15, 1#8)]) 0x8121#16
    (fun t => (t.v 1, t.v vf)) = some (0xFF#8, 1#8) := by decide

/-- A10. -/
theorem test_andReg : after (withV start [(1, 0xF3#8), (2, 0x3C#8)]) 0x8122#16 (fun t => t.v 1) =
    some 0x30#8 := by decide

/-- A11. -/
theorem test_xorReg : after (withV start [(1, 0xFF#8), (2, 0x0F#8)]) 0x8123#16 (fun t => t.v 1) =
    some 0xF0#8 := by decide

/-- A13. -/
theorem test_addReg : after (withV start [(1, 250#8), (2, 10#8)]) 0x8124#16 (fun t => (t.v 1, t.v vf)) =
    some (4#8, 1#8) := by decide

/-- A19: the old VF is the operand. -/
theorem test_addReg_vf : after (withV start [(1, 5#8), (15, 1#8)]) 0x81F4#16 (fun t => (t.v 1, t.v vf)) =
    some (6#8, 0#8) := by decide

/-- A22. -/
theorem test_subReg : after (withV start [(1, 3#8), (2, 10#8)]) 0x8125#16 (fun t => (t.v 1, t.v vf)) =
    some (249#8, 0#8) := by decide

/-- A23: equal operands are no borrow. -/
theorem test_subReg_equal : after (withV start [(1, 5#8), (2, 5#8)]) 0x8125#16
    (fun t => (t.v 1, t.v vf)) = some (0#8, 1#8) := by decide

/-- A28: V[y] is shifted, V[x]'s old value is ignored. -/
theorem test_shr : after (withV start [(1, 0xAA#8), (2, 5#8)]) 0x8126#16
    (fun t => (t.v 1, t.v vf, t.v 2)) = some (2#8, 1#8, 5#8) := by decide

/-- A32: the shifted value is overwritten by the flag. -/
theorem test_shr_vf : after (withV start [(2, 2#8)]) 0x8F26#16 (fun t => t.v vf) = some 0#8 := by
  decide

/-- A35. -/
theorem test_subnReg : after (withV start [(1, 10#8), (2, 3#8)]) 0x8127#16 (fun t => (t.v 1, t.v vf)) =
    some (0xF9#8, 0#8) := by decide

/-- A36. -/
theorem test_subnReg_equal : after (withV start [(1, 5#8), (2, 5#8)]) 0x8127#16
    (fun t => (t.v 1, t.v vf)) = some (0#8, 1#8) := by decide

/-- A37. -/
theorem test_shl : after (withV start [(2, 0x81#8)]) 0x812E#16 (fun t => (t.v 1, t.v vf)) =
    some (2#8, 1#8) := by decide

/-- A38. -/
theorem test_shl_no_carry : after (withV start [(2, 0x40#8)]) 0x812E#16 (fun t => (t.v 1, t.v vf)) =
    some (0x80#8, 0#8) := by decide

/-- A42's frame: the byte is a free value, everything else is fixed. -/
theorem test_rnd : after (withV start [(15, 1#8)]) 0xC300#16 (fun t => (t.v vf, t.pc, t.randoms)) =
    some (1#8, 0x202#16, 1) := by decide

/-! ## Address register and memory -/

/-- M1. -/
theorem test_ldI : after { start with I := 0xFFFF#16 } 0xA2F0#16 (fun t => (t.I, t.pc)) =
    some (0x2F0#16, 0x202#16) := by decide

/-- M4: the wrap at 65536. -/
theorem test_addI_wrap : after (withV { start with I := 0xFFFF#16 } [(1, 2#8)]) 0xF11E#16
    (fun t => t.I) = some 1#16 := by decide

/-- M3: no flag, no check. -/
theorem test_addI : after (withV { start with I := 0x0FFE#16 } [(1, 5#8), (15, 1#8)]) 0xF11E#16
    (fun t => (t.I, t.v vf)) = some (0x1003#16, 1#8) := by decide

/-- M7: only the low nibble counts. -/
theorem test_ldF : after (withV start [(4, 0x1A#8)]) 0xF429#16 (fun t => t.I) = some 0x32#16 := by
  decide

/-- M10. -/
theorem test_ldB : after (withV { start with I := 0x300#16 } [(2, 234#8)]) 0xF233#16
    (fun t => [t.mem.read 0x300, t.mem.read 0x301, t.mem.read 0x302, t.mem.read 0x303]) =
      some [2#8, 3#8, 4#8, 0#8] := by decide

/-- M16: the address is not reduced before the check. -/
theorem test_ldB_range : after (withV { start with I := 0xFFFF#16 } [(2, 199#8)]) 0xF233#16
    (fun t => (t.halt, t.pc, t.mem)) =
      some (some (.fault (.memOutOfRange 65537) 0x200#16), 0x200#16,
        [(0x200, 0xF2#8), (0x201, 0x33#8)]) := by decide

/-- M17. -/
theorem test_storeRegs :
    after (withV { start with I := 0x400#16 } [(0, 1#8), (1, 2#8), (2, 3#8), (3, 4#8)]) 0xF255#16
      (fun t => ([t.mem.read 0x400, t.mem.read 0x401, t.mem.read 0x402, t.mem.read 0x403], t.I)) =
        some ([1#8, 2#8, 3#8, 0#8], 0x400#16) := by decide

/-- M20. -/
theorem test_storeRegs_range : after { start with I := 4081#16 } 0xFF55#16 (fun t => t.halt) =
    some (some (.fault (.memOutOfRange 4096) 0x200#16)) := by decide

/-- M21. -/
theorem test_loadRegs :
    after (withV { start with I := 0x300#16, mem := [(0x300, 2#8), (0x301, 3#8), (0x302, 4#8), (0x303, 5#8)] }
        [(3, 0x99#8)]) 0xF265#16 (fun t => ([t.v 0, t.v 1, t.v 2, t.v 3], t.I)) =
      some ([2#8, 3#8, 4#8, 0x99#8], 0x300#16) := by decide

/-- M24: a program may read the font. -/
theorem test_loadRegs_font : after start 0xF065#16 (fun t => t.v 0) = some 0xF0#8 := by decide

/-! ## Display -/

/-- D1. -/
theorem test_cls : after (withV { start with fb := ((FrameBuffer.blank.put 0 0 true).put 5 5 true).put 31 63 true }
    [(15, 1#8)]) 0x00E0#16 (fun t => (decide (t.fb = FrameBuffer.blank), t.v vf)) = some (true, 1#8) := by
  decide

/-- D5: columns past 63 are clipped, neither drawn nor hit. -/
theorem test_drw_clip :
    after (withV { start with I := 0x300#16, mem := [(0x300, 0xFF#8)], fb := FrameBuffer.blank.put 0 0 true }
        [(0, 60#8)]) 0xD011#16 (fun t => (lit t.fb 0 2 0 64, t.v vf)) =
      some ([(0, 0), (0, 60), (0, 61), (0, 62), (0, 63)], 0#8) := by decide

/-- D10: one pixel hit. -/
theorem test_drw_hit :
    after { start with I := 0x300#16, mem := [(0x300, 0xC0#8)], fb := FrameBuffer.blank.put 0 0 true } 0xD011#16
      (fun t => (lit t.fb 0 1 0 64, t.v vf)) = some ([(0, 1)], 1#8) := by decide

/-! ## Keypad and timers -/

/-- K1. -/
theorem test_skp : after (withV { start with keyDown := some 5 } [(0, 5#8)]) 0xE09E#16 (fun t => t.pc) =
    some 0x204#16 := by decide

/-- K4: all 8 bits are compared. -/
theorem test_skp_wide : after (withV { start with keyDown := some 5 } [(0, 0x15#8)]) 0xE09E#16
    (fun t => t.pc) = some 0x202#16 := by decide

/-- K5. -/
theorem test_sknp : after (withV start [(0, 5#8)]) 0xE0A1#16 (fun t => t.pc) = some 0x204#16 := by
  decide

/-- K6. -/
theorem test_sknp_not : after (withV { start with keyDown := some 5 } [(0, 5#8)]) 0xE0A1#16
    (fun t => t.pc) = some 0x202#16 := by decide

/-- K9. -/
theorem test_ldVxDt : after { start with DT := 0x3C#8 } 0xF307#16 (fun t => (t.v 3, t.DT)) =
    some (0x3C#8, 0x3C#8) := by decide

/-- K13: the released key must be the key that is down. -/
theorem test_ldVxK_wait : after (withV { start with keyDown := some 7, keyReleased := some 3 } [(3, 0x55#8)])
    0xF30A#16 (fun t => (t.pc, t.v 3)) = some (0x200#16, 0x55#8) := by decide

/-- K15: key 0 is a key. -/
theorem test_ldVxK : after (withV { start with keyDown := some 0, keyReleased := some 0 } [(3, 0x55#8)])
    0xF30A#16 (fun t => (t.pc, t.v 3)) = some (0x202#16, 0#8) := by decide

/-- K16. -/
theorem test_ldDtVx : after (withV start [(0, 60#8)]) 0xF015#16 (fun t => (t.DT, t.ST)) =
    some (60#8, 0#8) := by decide

/-- K17. -/
theorem test_ldStVx : after (withV start [(0, 2#8)]) 0xF018#16 (fun t => (t.ST, t.tone)) =
    some (2#8, false) := by decide

/-! ## The step and the sequencer -/

/-- E15, R83: a decode miss advances `pc` by 2. -/
theorem test_miss : after start 0xF000#16 (fun t => (t.pc, t.halt, t.phase)) =
    some (0x202#16, none, .soundAfter) := by decide

/-- X1, X2: 4094 is the last legal fetch address. -/
theorem test_fetch_end :
    (step { start with pc := 4095#16 } =
      .next { start with pc := 4095#16, halt := some (.fault (.fetchOutOfRange 4095) 4095#16) }) ∧
    after { start with pc := 4094#16 } 0x1200#16 (fun t => t.pc) = some 0x200#16 := ⟨rfl, by decide⟩

/-- S2: steps 2 and 3 of a frame. -/
theorem test_countdown :
    step { State.reset with phase := .countdown, DT := 255#8, ST := 1#8 } =
      .next { State.reset with phase := .soundBefore, DT := 254#8, ST := 0#8 } := rfl

/-- S4: the tone follows ST > 0 at step 5. -/
theorem test_tone : step { State.reset with phase := .soundAfter, ST := 4#8 } =
    .next { State.reset with phase := .render, ST := 4#8, tone := true } := rfl

/-- R217. -/
theorem test_clear : step { State.reset with phase := .clear, keyDown := some 3, keyReleased := some 4 } =
    .next { State.reset with phase := .sample, frame := 1 } := rfl

/-- X7: a halted machine does not change. -/
theorem test_halted : step { start with halt := some .stopped } = .next { start with halt := some .stopped } := rfl

/-- R201: the cause codes and what each fault records. -/
theorem test_fault_codes :
    [Fault.fetchOutOfRange 4095, .memOutOfRange 4096, .stackOverflow, .stackUnderflow].map
      (fun c => (c.code, c.info)) = [(1, some 4095), (2, some 4096), (3, none), (4, none)] := by decide

/-- The host's question: a placed word is the very next instruction after reset. -/
theorem test_withFetchWord_after_reset : after State.reset 0x6A7F#16 (fun t => (t.v 10, t.pc)) =
    some (0x7F#8, 0x202#16) := by decide

/-- R243: the default table at its ends. -/
theorem test_default_font : (State.reset.mem.read 0, State.reset.mem.read 0x4F) = (0xF0#8, 0x80#8) := by decide

/-- R241: another font in its place, and a ROM. -/
theorem test_construct_font :
    (match State.construct (Vector.replicate 80 0xAA#8) [0x12#8, 0x34#8] with
      | .next s => [s.mem.read 0, s.mem.read 79, s.mem.read 80, s.mem.read 0x200, s.mem.read 0x201]
      | .fault _ => []
      | .refused _ => []) = [0xAA#8, 0xAA#8, 0x00#8, 0x12#8, 0x34#8] := by decide +kernel

/-- R242: a ROM of 3584 bytes is the longest. -/
theorem test_withRom_length :
    (List.replicate 3584 0x00#8).length ≤ Config.romMax ∧ ¬(List.replicate 3585 0x00#8).length ≤ Config.romMax := by
  rw [List.length_replicate, List.length_replicate]; decide

/-! ## Witnesses: the hypotheses of each obligation, met at the boundaries of its clauses -/

/-- Memory holding one word at `a`. -/
def wordAt (a : Nat) (hi lo : Byte) : Memory := [(a, hi), (a + 1, lo)]

theorem test_witness_DecoderFollowsOpcodeMap :
    decodeWord 0x5AB7#16 = .instr (.seReg 10 11) ∧ decodeWord 0x800F#16 = .miss (.eightKey 0xF#4) ∧
    (0x8AB6#16 &&& (Instr.shr 10 11).row.mask = (Instr.shr 10 11).row.fixed) := by decide

theorem test_witness_DecodeOfEncodeIsIdentity :
    (Instr.jpV0 0xFFF#16).WellFormed ∧ (Instr.drw 15 0 15).WellFormed ∧ (Instr.rnd 15 0xFF#8).WellFormed ∧
    Instr.cls.WellFormed := by decide

theorem test_witness_EncodeOfDecodeIsCanonicalWord :
    decodeWord 0x5ABF#16 = .instr (.seReg 10 11) ∧ decodeWord 0x0FEE#16 = .instr .ret ∧
    decodeWord 0xF365#16 = .instr (.loadRegs 3) := by decide

theorem test_witness_BurstStepRunsDecodedInstruction :
    let s := { start with pc := 4094#16, mem := wordAt 4094 0x12#8 0x06#8 }
    s.halt = none ∧ s.phase = .burst 0 ∧ s.executes (.jp 0x206#16) ∧
    exec (.jp 0x206#16) s = .next { s with pc := 0x206#16 } :=
  ⟨rfl, rfl, ⟨by decide, by decide⟩, rfl⟩

theorem test_witness_DecodeMissOnlyAdvancesPc :
    let s := { start with pc := 4094#16, phase := .burst 7 }
    s.halt = none ∧ s.phase = .burst 7 ∧ s.pc.toNat ≤ 4094 ∧ decodeWord s.word = .miss (.zeroKey 0x00#8) := by
  decide

theorem test_witness_FetchPastEndRaisesFault :
    let s := { start with pc := 4095#16 }
    s.halt = none ∧ s.phase = .burst 0 ∧ 4094 < s.pc.toNat := by decide

theorem test_witness_NextFetchSeesRegisterDump :
    let s := { start with pc := 4092#16, I := 4094#16 }
    Memory.wf s.mem ∧ 1 ≤ (1 : Reg).val ∧ s.I = s.pc + 2#16 ∧ s.pc.toNat ≤ 4092 ∧
    s.I.toNat + (1 : Reg).val ≤ 4095 := by decide

theorem test_witness_HaltIsAbsorbing : { start with halt := some .stopped }.halt ≠ none := by decide

theorem test_witness_ReturnPopsTheStack :
    { start with stack := [0x206#16] }.stack = [] ++ [0x206#16] ∧ start.stack = [] := by decide

theorem test_witness_JumpSetsPc :
    exec (.jp 0xFFF#16) start = .next { start with pc := 0xFFF#16 } ∧ 4094 < (0xFFF#16).toNat :=
  ⟨rfl, by decide⟩

theorem test_witness_CallPushesReturnAddress :
    { start with stack := List.replicate 15 0x206#16 }.stack.length < 16 ∧
    { start with stack := List.replicate 16 0x206#16 }.stack.length = 16 := by decide

theorem test_witness_SkipsOnImmediate :
    let s := { start with pc := 0xFFE#16 }
    exec (.seImm 0 0x00#8) s = .next { s with pc := 0x1002#16 } ∧
    exec (.sneImm 0 0x00#8) s = .next { s with pc := 0x1000#16 } ∧
    4094 < (0x1002#16).toNat ∧ 4094 < (0x1000#16).toNat := ⟨rfl, rfl, by decide, by decide⟩

theorem test_witness_JumpWithOffsetDoesNotWrap :
    fitsAddress 0xFFF#16 ∧ exec (.jpV0 0xFFF#16) start = .next { start with pc := 0xFFF#16 } ∧
    4094 < (0xFFF#16).toNat := ⟨by decide, rfl, by decide⟩

theorem test_witness_AddSetsCarry : (14 : Reg) ≠ vf := by decide

theorem test_witness_RandomIsMaskedByte :
    exec (.rnd 3 0x00#8) start =
      .next { start.advance.setV 3 (Config.randomByte 0 &&& 0x00#8) with randoms := 1 } := rfl

/-- Both antecedents: VF changed by an instruction that writes it as a flag, with no fault; and by one
whose destination it is. -/
theorem test_witness_FlagChangesOnlyAsTabled :
    let s := withV start [(1, 255#8)]
    exec (.addReg 1 1) s = .next (s.advance.setResult 1 254#8 true) ∧
    (s.advance.setResult 1 254#8 true).v vf ≠ s.v vf ∧ s.halt = none ∧
    (s.advance.setResult 1 254#8 true).halt = none ∧
    exec (.ldImm vf 9#8) s = .next (s.advance.setV vf 9#8) ∧ (s.advance.setV vf 9#8).v vf ≠ s.v vf :=
  ⟨rfl, by decide, rfl, rfl, rfl, by decide⟩

theorem test_witness_DecimalStoreWritesThreeDigits :
    let s := { start with I := 4093#16 }
    Memory.wf s.mem ∧ s.I.toNat + 2 ≤ 4095 ∧ 4095 < { start with I := 4094#16 }.I.toNat + 2 := by decide

theorem test_witness_RegisterDumpStoresPrefix :
    let s := { start with I := 4080#16 }
    Memory.wf s.mem ∧ s.I.toNat + (15 : Reg).val ≤ 4095 ∧
    4095 < { start with I := 4081#16 }.I.toNat + (15 : Reg).val := by decide

theorem test_witness_RegisterLoadReadsPrefix :
    { start with I := 4095#16 }.I.toNat + (0 : Reg).val ≤ 4095 ∧
    4095 < { start with I := 4096#16 }.I.toNat + (0 : Reg).val := by decide

theorem test_witness_DumpThenLoadRestores :
    let s := withV { start with I := 0x400#16 } [(0, 0x11#8), (1, 0x22#8)]
    Memory.wf s.mem ∧ s.I.toNat + (1 : Reg).val ≤ 4095 ∧
    exec (.storeRegs 1) s = .next { s with pc := 0x202#16, mem := wordAt 0x400 0x11#8 0x22#8 } :=
  ⟨by decide, by decide, rfl⟩

/-- No row on the screen with `I` past the end; the last row at 4095; D13's clipped row at 4096. -/
theorem test_witness_DrawFlipsSpritePixels :
    min 0 (32 - (start.v 1).toNat % 32) = 0 ∧
    { start with I := 4095#16 }.I.toNat + min 1 (32 - (start.v 1).toNat % 32) - 1 ≤ 4095 ∧
    { start with I := 4095#16 }.I.toNat + min 2 (32 - ((withV start [(1, 31#8)]).v 1).toNat % 32) - 1 ≤ 4095 := by
  decide

theorem test_witness_DrawPastEndOfMemoryFaults :
    1 ≤ 2 ∧ 4095 < { start with I := 4095#16 }.I.toNat + min 2 (32 - (start.v 1).toNat % 32) - 1 := by decide

/-- D2's draw, then the same draw on what it leaves; the pixel it turned on is covered and was off. -/
theorem test_witness_DrawingTwiceRestoresTheScreen :
    let s := { start with I := 0x204#16, mem := [(0x204, 0x80#8)] }
    (0 : Reg) ≠ vf ∧ (1 : Reg) ≠ vf ∧ s.halt = none ∧
    (match exec (.drw 0 1 1) s with
      | .next t => t.halt = none
      | .fault _ => False
      | .refused _ => False) ∧
    s.draws 0 1 1 0 0 ∧ s.fb.get 0 0 = false := by
  refine ⟨by decide, by decide, rfl, ?_, ?_, by decide⟩
  · rfl
  · unfold State.draws spriteCovers; decide

theorem test_witness_KeySkipsTestTheKeyDown :
    { start with keyDown := some 0 }.keyDown = some 0 ∧ (0 : Key).val = (start.v 2).toNat ∧
    (withV { start with keyDown := some 15 } [(2, 15#8)]).keyDown = some 15 ∧
    (15 : Key).val = ((withV { start with keyDown := some 15 } [(2, 15#8)]).v 2).toNat ∧
    (∀ k : Key, start.keyDown = some k → k.val ≠ (start.v 2).toNat) ∧
    (∀ k : Key, { start with keyDown := some 5 }.keyDown = some k → k.val ≠ (start.v 2).toNat) := by decide

theorem test_witness_KeyWaitLatchesOrStalls :
    start.waitsForKey ∧ { start with keyDown := some 7 }.waitsForKey ∧
    { start with keyReleased := some 7 }.waitsForKey ∧
    { start with keyDown := some 7, keyReleased := some 3 }.waitsForKey ∧
    { start with keyDown := some 15, keyReleased := some 15 }.keyDown = some 15 := by
  unfold State.waitsForKey; decide

theorem test_witness_sequencer_positions :
    (State.reset.halt = none ∧ State.reset.phase = .sample) ∧
    { State.reset with phase := .countdown }.halt = none ∧
    { State.reset with phase := .soundBefore }.halt = none ∧
    { State.reset with phase := .soundAfter }.halt = none ∧
    { State.reset with phase := .render }.halt = none ∧
    { State.reset with phase := .clear }.halt = none := by decide

theorem test_witness_OnlyStoresChangeMemory :
    let s := { start with pc := 0x200#16, I := 0x300#16, mem := wordAt 0x200 0xF0#8 0x33#8, DT := 1#8 }
    let t := { s.advance with phase := .soundAfter, mem := wordAt 0x200 0xF0#8 0x33#8 ++ [(0x302, 7#8)] }
    step (withV s [(0, 7#8)]) = .next (withV t [(0, 7#8)]) ∧ t.mem ≠ s.mem := ⟨rfl, by decide⟩

theorem test_witness_OnlyClearAndDrawChangePixels :
    let s := { start with mem := wordAt 0x200 0x00#8 0xE0#8, fb := FrameBuffer.blank.put 31 63 true }
    step { s with mem := [(0x201, 0xE0#8)] } =
      .next { s with
        mem := [(0x201, 0xE0#8)], pc := 0x202#16, phase := .soundAfter, fb := FrameBuffer.blank } ∧
    FrameBuffer.blank ≠ s.fb := ⟨rfl, by decide⟩

theorem test_witness_OnlyCallAndReturnMoveTheStack :
    step { start with mem := wordAt 0x200 0x23#8 0x45#8 } =
      .next { start with
        mem := wordAt 0x200 0x23#8 0x45#8, pc := 0x345#16, stack := [0x202#16], phase := .soundAfter } ∧
    step { start with mem := [(0x201, 0xEE#8)], stack := [0x345#16] } =
      .next { start with mem := [(0x201, 0xEE#8)], pc := 0x345#16, phase := .soundAfter } := ⟨rfl, rfl⟩

/-- A snapshot, a tone and a timer that change: at step 7, step 3 and step 2; and ST by Fx18. -/
theorem test_witness_SequencerStateHasItsOwnWriters :
    step { State.reset with phase := .clear, keyDown := some 3 } =
      .next { State.reset with phase := .sample, frame := 1 } ∧
    step { State.reset with phase := .soundBefore, ST := 2#8 } =
      .next { State.reset with phase := .burst Config.burstMore, ST := 2#8, tone := true } ∧
    step { State.reset with phase := .countdown, DT := 1#8, ST := 1#8 } =
      .next { State.reset with phase := .soundBefore } ∧
    step (withV { start with mem := wordAt 0x200 0xF0#8 0x18#8 } [(0, 2#8)]) =
      .next (withV { start with
        mem := wordAt 0x200 0xF0#8 0x18#8, pc := 0x202#16, ST := 2#8, phase := .soundAfter } [(0, 2#8)]) :=
  ⟨rfl, rfl, rfl, rfl⟩

theorem test_witness_PcAdvancesAsTabled :
    exec (.ldB 0) { start with I := 4093#16 } = .next { start with I := 4093#16, pc := 0x202#16 } ∧
    faultOf (.ldB 0) { start with I := 4093#16 } = none := ⟨rfl, by decide⟩

theorem test_witness_OtherInstructionsIgnoreTimersAndKeys :
    (∀ x, Instr.ldI 0x300#16 ≠ .skp x ∧ Instr.ldI 0x300#16 ≠ .sknp x ∧ Instr.ldI 0x300#16 ≠ .ldVxDt x ∧
      Instr.ldI 0x300#16 ≠ .ldVxK x ∧ Instr.ldI 0x300#16 ≠ .ldDtVx x ∧ Instr.ldI 0x300#16 ≠ .ldStVx x) ∧
    exec (.ldI 0x300#16) start = .next { start with pc := 0x202#16, I := 0x300#16 } := ⟨by decide, rfl⟩

/-- C7's self-jump, K10's wait, and B200 with `V[0] = 0` at 0x200, which R257 leaves out. -/
theorem test_witness_StationaryStatesCharacterised :
    { start with mem := [(0x200, 0x12#8)] }.executes (.jp 0x200#16) ∧
    { start with mem := wordAt 0x200 0xF3#8 0x0A#8 }.executes (.ldVxK 3) ∧
    { start with mem := [(0x200, 0xB2#8)] }.executes (.jpV0 0x200#16) ∧
    instrStep { start with mem := [(0x200, 0xB2#8)] } = .next { start with mem := [(0x200, 0xB2#8)] } :=
  ⟨⟨by decide, by decide⟩, ⟨by decide, by decide⟩, ⟨by decide, by decide⟩, rfl⟩

theorem test_witness_RomIsLoadedVerbatim :
    (List.replicate 3584 0x12#8).length ≤ 3584 ∧ 3584 < (List.replicate 3585 0x12#8).length := by
  rw [List.length_replicate, List.length_replicate]; decide

/-- Both lengths at which the clauses meet, and a font in which every byte differs from the default. -/
theorem test_witness_ConstructionLoadsFontAndRom :
    (List.replicate 3584 0x12#8).length ≤ 3584 ∧ 3584 < (List.replicate 3585 0x12#8).length ∧
    (∀ i : Fin 80, (Vector.replicate 80 0xAA#8)[i] ≠ Config.defaultFont[i]) := by
  rw [List.length_replicate, List.length_replicate]; decide

/-- The invariant holds in a halted state inside a burst, with the longest stack. -/
theorem test_witness_EveryStepKeepsTheInvariant :
    { start with
      stack := List.replicate 16 0x1000#16, halt := some (.fault .stackOverflow 0x200#16) }.Inv where
  mem := Memory.reset_wf
  depth := Nat.le_refl 16
  saved := by intro v hv; rw [List.eq_of_mem_replicate hv]; decide
  pc := by decide
  burst := by intro more h; cases h; exact Nat.succ_pos _
  fault := by intro c a h; cases h; exact ⟨rfl, rfl, 0, rfl⟩
  stopped := by intro h; cases h

end Sys2Proof.Tests
end

section
/-! The no-operation of the decoder (spec/30_encoding.md R83). -/

namespace Sys2Proof.Machine

/-- The missing word is fetched, so neither the fetch fault nor an instruction is possible. -/
theorem instrStep_of_miss {s : State} {why : DecodeMiss} (hpc : s.pc.toNat ≤ 4094)
    (hw : decodeWord s.word = .miss why) : instrStep s = .next s.advance := by
  obtain ⟨hgt, -⟩ | ⟨-, -, -, hstep⟩ | ⟨i, ⟨-, hi⟩, -, -⟩ := instrStep_cases s
  · exact absurd hpc (Nat.not_le.2 hgt)
  · exact hstep
  · rw [hw] at hi
    cases hi

/-- An instruction step that leaves the machine running moves the position on (R215). -/
theorem endInstr_next_of_running (more : Nat) {t : State} (h : t.halt = none) :
    endInstr more (.next t) = .next { t with phase := .afterInstr more } := by
  simp [endInstr_next, h]

/-- Settles O7: the instruction step only advances `pc`, which does not halt the machine. -/
theorem decodeMissOnlyAdvancesPc : Obligations.DecodeMissOnlyAdvancesPc := by
  intro s more why hrun hphase hpc hmiss
  have hadv : s.advance.halt = none := hrun
  rw [step_of_burst hrun hphase, instrStep_of_miss hpc hmiss, endInstr_next_of_running more hadv]
  rfl

end Sys2Proof.Machine
end

section
/-! Loads, immediate addition, copy and logic (spec/41_alu.md R120 to R125): each writes `V[x]` alone,
VF no exception. -/

namespace Sys2Proof.Machine

/-- A word with top nibble 8 is decoded by its low nibble (R77). -/
theorem decodeWord_of_eight {w : Word} (h : w.topNibble = 0x8#4) : decodeWord w = decodeEight w := by
  simp [decodeWord, h]

/-- A row under top nibble 8, selected by its second-level key. -/
theorem decodesOn_eight {fixed : Word} {f : Word → Instr} (key : Nibble)
    (htop : fixed.topNibble = 0x8#4) (hkey : fixed.nField = key)
    (h : ∀ w : Word, w.nField = key → decodeEight w = .instr (f w)) : DecodesOn 0xF00F#16 fixed f :=
  decodesOn_top_n fun w ht hn => (decodeWord_of_eight (ht.trans htop)).trans (h w (hn.trans hkey))

/-- What an instruction does whose meaning is one register write after the fetch's increment. -/
theorem exec_writes_one_register {i : Instr} {s : State} {x : Reg} {b : Byte}
    (h : exec i s = .next (s.advance.setV x b)) :
    ∃ t, exec i s = .next t ∧ t.pc = s.pc + 2#16 ∧ t.v x = b ∧ OnlyRegisters (· = x) s t :=
  ⟨_, h, by simp, by simp, onlyRegisters_setV s x b⟩

/-- Settles O18: 6xnn and 7xnn each write one register, and the addition of bytes is modulo 256. -/
theorem loadAndAddImmediate : Obligations.LoadAndAddImmediate := by
  refine ⟨decodesOn_top fun w (htop : w.topNibble = 0x6#4) => ?_,
    decodesOn_top fun w (htop : w.topNibble = 0x7#4) => ?_,
    fun x nn s => exec_writes_one_register rfl, fun x nn s => ?_⟩
  · simp [decodeWord, htop]
  · simp [decodeWord, htop]
  · obtain ⟨t, hexec, hpc, hsum, hframe⟩ :=
      exec_writes_one_register (rfl : exec (.addImm x nn) s = .next (s.advance.setV x (s.v x + nn)))
    exact ⟨t, hexec, hpc, hsum ▸ BitVec.toNat_add (s.v x) nn, hframe⟩

/-- Settles O19: the four rows differ only in their second-level key and in the byte they write. -/
theorem copyAndLogicHaveNoFlag : Obligations.CopyAndLogicHaveNoFlag := by
  refine ⟨decodesOn_eight 0x0#4 rfl rfl fun w hn => ?_, decodesOn_eight 0x1#4 rfl rfl fun w hn => ?_,
    decodesOn_eight 0x2#4 rfl rfl fun w hn => ?_, decodesOn_eight 0x3#4 rfl rfl fun w hn => ?_,
    fun x y s => ⟨exec_writes_one_register rfl, exec_writes_one_register rfl,
      exec_writes_one_register rfl, exec_writes_one_register rfl⟩⟩
  all_goals simp [decodeEight, hn]

end Sys2Proof.Machine
end

section
/-! The address register set to a constant or to a glyph (spec/42_index_memory.md R140, R142). -/

namespace Sys2Proof.Machine

/-- Settles O25: both meanings are one write of `I` after the fetch's increment, and a glyph's address
does not wrap. -/
theorem setAddressAndGlyph : Obligations.SetAddressAndGlyph := by
  refine ⟨decodesOn_top fun w (htop : w.topNibble = 0xA#4) => ?_,
    decodesOn_top_nn fun w (htop : w.topNibble = 0xF#4) (hlow : w.nnField = 0x29#8) => ?_,
    fun nnn s => rfl, fun x s => ⟨_, rfl, toNat_glyphAddress (s.v x), rfl⟩⟩
  · simp [decodeWord, htop]
  · simp [decodeWord_of_misc htop, decodeMisc, hlow]

end Sys2Proof.Machine
end

section
/-! The rows of the opcode map (spec/30_encoding.md R80), each an equation of the decoder. -/

namespace Sys2Proof.Machine

/-- A row under top nibble 0, selected by its low byte. -/
theorem decodesOn_zero {fixed : Word} {i : Instr} (key : Byte) (htop : fixed.topNibble = 0x0#4)
    (hkey : fixed.nnField = key) (h : ∀ w : Word, w.nnField = key → decodeZero w = .instr i) :
    DecodesOn 0xF0FF#16 fixed (fun _ => i) :=
  decodesOn_top_nn fun w ht hn => by
    rw [htop] at ht
    simpa [decodeWord, ht] using h w (hn.trans hkey)

/-- A row under top nibble 0xE, selected by its low byte. -/
theorem decodesOn_keypad {fixed : Word} {f : Word → Instr} (key : Byte)
    (htop : fixed.topNibble = 0xE#4) (hkey : fixed.nnField = key)
    (h : ∀ w : Word, w.nnField = key → decodeKeypad w = .instr (f w)) : DecodesOn 0xF0FF#16 fixed f :=
  decodesOn_top_nn fun w ht hn => by
    rw [htop] at ht
    simpa [decodeWord, ht] using h w (hn.trans hkey)

/-- A row under top nibble 0xF, selected by its low byte. -/
theorem decodesOn_misc {fixed : Word} {f : Word → Instr} (key : Byte)
    (htop : fixed.topNibble = 0xF#4) (hkey : fixed.nnField = key)
    (h : ∀ w : Word, w.nnField = key → decodeMisc w = .instr (f w)) : DecodesOn 0xF0FF#16 fixed f :=
  decodesOn_top_nn fun w ht hn =>
    (decodeWord_of_misc (ht.trans htop)).trans (h w (hn.trans hkey))

theorem decodesOn_cls : DecodesOn 0xF0FF#16 0x00E0#16 (fun _ => .cls) :=
  decodesOn_zero 0xE0#8 rfl rfl fun w h => by simp [decodeZero, h]

theorem decodesOn_ret : DecodesOn 0xF0FF#16 0x00EE#16 (fun _ => .ret) :=
  decodesOn_zero 0xEE#8 rfl rfl fun w h => by simp [decodeZero, h]

theorem decodesOn_jp : DecodesOn 0xF000#16 0x1000#16 (fun w => .jp w.nnnField) :=
  decodesOn_top fun w (h : w.topNibble = 0x1#4) => by simp [decodeWord, h]

theorem decodesOn_call : DecodesOn 0xF000#16 0x2000#16 (fun w => .call w.nnnField) :=
  decodesOn_top fun w (h : w.topNibble = 0x2#4) => by simp [decodeWord, h]

theorem decodesOn_seImm : DecodesOn 0xF000#16 0x3000#16 (fun w => .seImm w.xField w.nnField) :=
  decodesOn_top fun w (h : w.topNibble = 0x3#4) => by simp [decodeWord, h]

theorem decodesOn_sneImm : DecodesOn 0xF000#16 0x4000#16 (fun w => .sneImm w.xField w.nnField) :=
  decodesOn_top fun w (h : w.topNibble = 0x4#4) => by simp [decodeWord, h]

theorem decodesOn_seReg : DecodesOn 0xF000#16 0x5000#16 (fun w => .seReg w.xField w.yField) :=
  decodesOn_top fun w (h : w.topNibble = 0x5#4) => by simp [decodeWord, h]

theorem decodesOn_ldImm : DecodesOn 0xF000#16 0x6000#16 (fun w => .ldImm w.xField w.nnField) :=
  loadAndAddImmediate.1

theorem decodesOn_addImm : DecodesOn 0xF000#16 0x7000#16 (fun w => .addImm w.xField w.nnField) :=
  loadAndAddImmediate.2.1

theorem decodesOn_ldReg : DecodesOn 0xF00F#16 0x8000#16 (fun w => .ldReg w.xField w.yField) :=
  copyAndLogicHaveNoFlag.1

theorem decodesOn_orReg : DecodesOn 0xF00F#16 0x8001#16 (fun w => .orReg w.xField w.yField) :=
  copyAndLogicHaveNoFlag.2.1

theorem decodesOn_andReg : DecodesOn 0xF00F#16 0x8002#16 (fun w => .andReg w.xField w.yField) :=
  copyAndLogicHaveNoFlag.2.2.1

theorem decodesOn_xorReg : DecodesOn 0xF00F#16 0x8003#16 (fun w => .xorReg w.xField w.yField) :=
  copyAndLogicHaveNoFlag.2.2.2.1

theorem decodesOn_addReg : DecodesOn 0xF00F#16 0x8004#16 (fun w => .addReg w.xField w.yField) :=
  decodesOn_eight 0x4#4 rfl rfl fun w h => by simp [decodeEight, h]

theorem decodesOn_subReg : DecodesOn 0xF00F#16 0x8005#16 (fun w => .subReg w.xField w.yField) :=
  decodesOn_eight 0x5#4 rfl rfl fun w h => by simp [decodeEight, h]

theorem decodesOn_shr : DecodesOn 0xF00F#16 0x8006#16 (fun w => .shr w.xField w.yField) :=
  decodesOn_eight 0x6#4 rfl rfl fun w h => by simp [decodeEight, h]

theorem decodesOn_subnReg : DecodesOn 0xF00F#16 0x8007#16 (fun w => .subnReg w.xField w.yField) :=
  decodesOn_eight 0x7#4 rfl rfl fun w h => by simp [decodeEight, h]

theorem decodesOn_shl : DecodesOn 0xF00F#16 0x800E#16 (fun w => .shl w.xField w.yField) :=
  decodesOn_eight 0xE#4 rfl rfl fun w h => by simp [decodeEight, h]

theorem decodesOn_sneReg : DecodesOn 0xF000#16 0x9000#16 (fun w => .sneReg w.xField w.yField) :=
  decodesOn_top fun w (h : w.topNibble = 0x9#4) => by simp [decodeWord, h]

theorem decodesOn_ldI : DecodesOn 0xF000#16 0xA000#16 (fun w => .ldI w.nnnField) :=
  setAddressAndGlyph.1

theorem decodesOn_jpV0 : DecodesOn 0xF000#16 0xB000#16 (fun w => .jpV0 w.nnnField) :=
  decodesOn_top fun w (h : w.topNibble = 0xB#4) => by simp [decodeWord, h]

theorem decodesOn_rnd : DecodesOn 0xF000#16 0xC000#16 (fun w => .rnd w.xField w.nnField) :=
  decodesOn_top fun w (h : w.topNibble = 0xC#4) => by simp [decodeWord, h]

theorem decodesOn_drw :
    DecodesOn 0xF000#16 0xD000#16 (fun w => .drw w.xField w.yField w.nField.toNat) :=
  decodesOn_top fun w (h : w.topNibble = 0xD#4) => by simp [decodeWord, h]

theorem decodesOn_skp : DecodesOn 0xF0FF#16 0xE09E#16 (fun w => .skp w.xField) :=
  decodesOn_keypad 0x9E#8 rfl rfl fun w h => by simp [decodeKeypad, h]

theorem decodesOn_sknp : DecodesOn 0xF0FF#16 0xE0A1#16 (fun w => .sknp w.xField) :=
  decodesOn_keypad 0xA1#8 rfl rfl fun w h => by simp [decodeKeypad, h]

theorem decodesOn_ldVxDt : DecodesOn 0xF0FF#16 0xF007#16 (fun w => .ldVxDt w.xField) :=
  decodesOn_misc 0x07#8 rfl rfl fun w h => by simp [decodeMisc, h]

theorem decodesOn_ldVxK : DecodesOn 0xF0FF#16 0xF00A#16 (fun w => .ldVxK w.xField) :=
  decodesOn_misc 0x0A#8 rfl rfl fun w h => by simp [decodeMisc, h]

theorem decodesOn_ldDtVx : DecodesOn 0xF0FF#16 0xF015#16 (fun w => .ldDtVx w.xField) :=
  decodesOn_misc 0x15#8 rfl rfl fun w h => by simp [decodeMisc, h]

theorem decodesOn_ldStVx : DecodesOn 0xF0FF#16 0xF018#16 (fun w => .ldStVx w.xField) :=
  decodesOn_misc 0x18#8 rfl rfl fun w h => by simp [decodeMisc, h]

theorem decodesOn_addI : DecodesOn 0xF0FF#16 0xF01E#16 (fun w => .addI w.xField) :=
  decodesOn_misc 0x1E#8 rfl rfl fun w h => by simp [decodeMisc, h]

theorem decodesOn_ldF : DecodesOn 0xF0FF#16 0xF029#16 (fun w => .ldF w.xField) :=
  setAddressAndGlyph.2.1

theorem decodesOn_ldB : DecodesOn 0xF0FF#16 0xF033#16 (fun w => .ldB w.xField) :=
  decodesOn_misc 0x33#8 rfl rfl fun w h => by simp [decodeMisc, h]

theorem decodesOn_storeRegs : DecodesOn 0xF0FF#16 0xF055#16 (fun w => .storeRegs w.xField) :=
  decodesOn_misc 0x55#8 rfl rfl fun w h => by simp [decodeMisc, h]

theorem decodesOn_loadRegs : DecodesOn 0xF0FF#16 0xF065#16 (fun w => .loadRegs w.xField) :=
  decodesOn_misc 0x65#8 rfl rfl fun w h => by simp [decodeMisc, h]

end Sys2Proof.Machine
end

section
/-! Decoding and encoding agree (spec/30_encoding.md R79 to R82). -/

namespace Sys2Proof

/-! ### Decoding what the encoder spells -/

/-- The encoder's bytes are read back as the encoder's word (R52). -/
theorem decode_bytesOfWord (w : Word) (rest : List Byte) :
    decode (bytesOfWord w ++ rest) = (decodeWord w, rest) := by
  simp only [bytesOfWord, List.cons_append, List.nil_append, decode_cons, wordOfBytes_bytesOfWord]

/-- The two-level dispatch on the encoder's formats: only an address and a height can fail to fit. -/
theorem decodeWord_encodeWord {i : Instr} (h : i.WellFormed) : decodeWord (encodeWord i) = .instr i := by
  cases i with
  | jp | call | ldI | jpV0 =>
    simp [decodeWord, encodeWord, nnnField_formatNNN _ _ (of_decide_eq_true h)]
  | drw x y n =>
    have hn : n < 16 := of_decide_eq_true h
    simp [decodeWord, encodeWord, Nat.mod_eq_of_lt hn]
  | cls | ret => simp [decodeWord, encodeWord, decodeZero]
  | ldReg | orReg | andReg | xorReg | addReg | subReg | shr | subnReg | shl =>
    simp [decodeWord, encodeWord, decodeEight]
  | skp | sknp => simp [decodeWord, encodeWord, decodeKeypad]
  | ldVxDt | ldVxK | ldDtVx | ldStVx | addI | ldF | ldB | storeRegs | loadRegs =>
    simp [decodeWord, encodeWord, decodeMisc]
  | seImm | sneImm | seReg | sneReg | ldImm | addImm | rnd => simp [decodeWord, encodeWord]

/-- Settles O4: the bytes give the encoder's word back, and the decoder reads each format's fields. -/
theorem decodeOfEncodeIsIdentity : Obligations.DecodeOfEncodeIsIdentity := by
  intro i rest h
  rw [encode, decode_bytesOfWord, decodeWord_encodeWord h]

/-- Settles O1: ten closed computations of the decoder. -/
theorem sampleWordsDecode : Obligations.SampleWordsDecode := by
  unfold Obligations.SampleWordsDecode
  decide

/-! ### The decode misses -/

theorem decodeZero_eq_miss_iff (w : Word) (why : DecodeMiss) :
    decodeZero w = .miss why ↔ w.nnField ∉ [0xE0#8, 0xEE#8] ∧ why = .zeroKey w.nnField := by
  unfold decodeZero
  split <;> simp_all [eq_comm]

theorem decodeEight_eq_miss_iff (w : Word) (why : DecodeMiss) :
    decodeEight w = .miss why ↔ w.nField ∈ [0x8#4, 0x9#4, 0xA#4, 0xB#4, 0xC#4, 0xD#4, 0xF#4] ∧
      why = .eightKey w.nField := by
  unfold decodeEight
  obtain h | h | h | h | h | h | h | h | h | h | h | h | h | h | h | h := nibble_cases w.nField <;>
    simp [h, eq_comm]

theorem decodeKeypad_eq_miss_iff (w : Word) (why : DecodeMiss) :
    decodeKeypad w = .miss why ↔ w.nnField ∉ [0x9E#8, 0xA1#8] ∧ why = .keypadKey w.nnField := by
  unfold decodeKeypad
  split <;> simp_all [eq_comm]

theorem decodeMisc_eq_miss_iff (w : Word) (why : DecodeMiss) :
    decodeMisc w = .miss why ↔
      w.nnField ∉ [0x07#8, 0x0A#8, 0x15#8, 0x18#8, 0x1E#8, 0x29#8, 0x33#8, 0x55#8, 0x65#8] ∧
      why = .miscKey w.nnField := by
  unfold decodeMisc
  split <;> simp_all [eq_comm]

/-- Settles O3: only the four top nibbles with a second-level key can miss, each as its own decoder says. -/
theorem decodeMissesAreTheFourClasses : Obligations.DecodeMissesAreTheFourClasses := by
  intro w why
  obtain h | h | h | h | h | h | h | h | h | h | h | h | h | h | h | h := nibble_cases w.topNibble <;>
    simp [decodeWord, h, decodeZero_eq_miss_iff, decodeEight_eq_miss_iff, decodeKeypad_eq_miss_iff,
      decodeMisc_eq_miss_iff]

/-! ### Words under their row, and their canonical encoding -/

theorem ofFin_xField (w : Word) : (BitVec.ofFin w.xField : Nibble) = w.extractLsb' 8 4 := rfl

theorem ofFin_yField (w : Word) : (BitVec.ofFin w.yField : Nibble) = w.extractLsb' 4 4 := rfl

/-- A word is spelled by its top nibble, `x` and its low byte (format XNN). -/
theorem formatXNN_fields {w : Word} {top : Nibble} {nn : Byte} (ht : w.topNibble = top)
    (hn : w.nnField = nn) : formatXNN top w.xField nn = w := by
  subst ht hn
  refine BitVec.eq_of_getLsbD_eq fun i hi => ?_
  simp only [formatXNN, ofFin_xField, BitVec.getLsbD_append]
  interval_cases i <;> simp [Word.topNibble, Word.nnField]

/-- A word is spelled by its four nibbles (format XYN). -/
theorem formatXYN_fields {w : Word} {top n : Nibble} (ht : w.topNibble = top) (hn : w.nField = n) :
    formatXYN top w.xField w.yField n = w := by
  subst ht hn
  refine BitVec.eq_of_getLsbD_eq fun i hi => ?_
  simp only [formatXYN, ofFin_xField, ofFin_yField, BitVec.getLsbD_append]
  interval_cases i <;> simp [Word.topNibble, Word.nField]

/-- A word is spelled by its top nibble and its address (format NNN). -/
theorem formatNNN_fields {w : Word} {top : Nibble} (ht : w.topNibble = top) :
    formatNNN top w.nnnField = w := by
  subst ht
  refine BitVec.eq_of_getLsbD_eq fun i hi => ?_
  simp only [formatNNN, BitVec.getLsbD_append]
  interval_cases i <;> simp [Word.topNibble, Word.nnnField]

/-- A low nibble of zero clears the four bits that 5xy0 and 9xy0 do not examine (R79). -/
theorem formatXYN_zero {w : Word} {top : Nibble} (ht : w.topNibble = top) :
    formatXYN top w.xField w.yField 0x0#4 = w &&& 0xFFF0#16 := by
  subst ht
  refine BitVec.eq_of_getLsbD_eq fun i hi => ?_
  simp only [formatXYN, ofFin_xField, ofFin_yField, BitVec.getLsbD_append]
  interval_cases i <;> simp [Word.topNibble]

/-- The word with its don't-care bits zero (R17, R79). -/
def Word.canonical (w : Word) : Word :=
  if w.topNibble = 0x5#4 ∨ w.topNibble = 0x9#4 then w &&& 0xFFF0#16
  else if w.topNibble = 0x0#4 then w &&& 0xF0FF#16
  else w

/-- The word selects the instruction's row of the opcode map, and the instruction is encoded as the
canonical form of the word. -/
def Word.Spells (w : Word) (i : Instr) : Prop :=
  w &&& i.row.mask = i.row.fixed ∧ encodeWord i = w.canonical

theorem spells_of_decodeZero {w : Word} {i : Instr} (ht : w.topNibble = 0x0#4)
    (h : decodeZero w = .instr i) : w.Spells i := by
  unfold decodeZero at h
  split at h <;> cases h <;>
    simp [Word.Spells, Word.canonical, Instr.row, encodeWord, and_mask_top_nn, formatXNN, *]

theorem spells_of_decodeEight {w : Word} {i : Instr} (ht : w.topNibble = 0x8#4)
    (h : decodeEight w = .instr i) : w.Spells i := by
  unfold decodeEight at h
  split at h <;> cases h <;>
    simp [Word.Spells, Word.canonical, Instr.row, encodeWord, and_mask_top_n, formatXYN_fields, *]

theorem spells_of_decodeKeypad {w : Word} {i : Instr} (ht : w.topNibble = 0xE#4)
    (h : decodeKeypad w = .instr i) : w.Spells i := by
  unfold decodeKeypad at h
  split at h <;> cases h <;>
    simp [Word.Spells, Word.canonical, Instr.row, encodeWord, and_mask_top_nn, formatXNN_fields, *]

theorem spells_of_decodeMisc {w : Word} {i : Instr} (ht : w.topNibble = 0xF#4)
    (h : decodeMisc w = .instr i) : w.Spells i := by
  unfold decodeMisc at h
  split at h <;> cases h <;>
    simp [Word.Spells, Word.canonical, Instr.row, encodeWord, and_mask_top_nn, formatXNN_fields, *]

/-- A decoded word selects the row of its instruction and, up to don't-care bits, is its encoding. The
cases `h_1` to `h_16` are the top nibbles 0 to 0xF: four with a second level, then one group per format. -/
theorem spells_of_decodeWord {w : Word} {i : Instr} (h : decodeWord w = .instr i) : w.Spells i := by
  unfold decodeWord at h
  split at h
  case h_1 ht => exact spells_of_decodeZero ht h
  case h_9 ht => exact spells_of_decodeEight ht h
  case h_15 ht => exact spells_of_decodeKeypad ht h
  case h_16 =>
    have ht : w.topNibble = 0xF#4 := by have := nibble_cases w.topNibble; tauto
    exact spells_of_decodeMisc ht h
  case h_2 | h_3 | h_11 | h_12 =>
    cases h
    simp [Word.Spells, Word.canonical, Instr.row, encodeWord, and_mask_top, formatNNN_fields, *]
  case h_4 | h_5 | h_7 | h_8 | h_13 =>
    cases h
    simp [Word.Spells, Word.canonical, Instr.row, encodeWord, and_mask_top, formatXNN_fields, *]
  case h_6 | h_10 =>
    cases h
    simp [Word.Spells, Word.canonical, Instr.row, encodeWord, and_mask_top, formatXYN_zero, *]
  case h_14 =>
    cases h
    simp [Word.Spells, Word.canonical, Instr.row, encodeWord, and_mask_top, formatXYN_fields, *]

/-- Settles O5: every decoded word spells its instruction. -/
theorem encodeOfDecodeIsCanonicalWord : Obligations.EncodeOfDecodeIsCanonicalWord :=
  fun _ _ h => (spells_of_decodeWord h).2

open Machine in
/-- A word that selects an instruction's row decodes to an instruction of that row. -/
theorem decodeWord_of_row {w : Word} {i : Instr} (h : w &&& i.row.mask = i.row.fixed) :
    ∃ j, decodeWord w = .instr j ∧ j.row = i.row := by
  cases i with
  | cls => exact ⟨_, decodesOn_cls w h, rfl⟩
  | ret => exact ⟨_, decodesOn_ret w h, rfl⟩
  | jp => exact ⟨_, decodesOn_jp w h, rfl⟩
  | call => exact ⟨_, decodesOn_call w h, rfl⟩
  | seImm => exact ⟨_, decodesOn_seImm w h, rfl⟩
  | sneImm => exact ⟨_, decodesOn_sneImm w h, rfl⟩
  | seReg => exact ⟨_, decodesOn_seReg w h, rfl⟩
  | ldImm => exact ⟨_, decodesOn_ldImm w h, rfl⟩
  | addImm => exact ⟨_, decodesOn_addImm w h, rfl⟩
  | ldReg => exact ⟨_, decodesOn_ldReg w h, rfl⟩
  | orReg => exact ⟨_, decodesOn_orReg w h, rfl⟩
  | andReg => exact ⟨_, decodesOn_andReg w h, rfl⟩
  | xorReg => exact ⟨_, decodesOn_xorReg w h, rfl⟩
  | addReg => exact ⟨_, decodesOn_addReg w h, rfl⟩
  | subReg => exact ⟨_, decodesOn_subReg w h, rfl⟩
  | shr => exact ⟨_, decodesOn_shr w h, rfl⟩
  | subnReg => exact ⟨_, decodesOn_subnReg w h, rfl⟩
  | shl => exact ⟨_, decodesOn_shl w h, rfl⟩
  | sneReg => exact ⟨_, decodesOn_sneReg w h, rfl⟩
  | ldI => exact ⟨_, decodesOn_ldI w h, rfl⟩
  | jpV0 => exact ⟨_, decodesOn_jpV0 w h, rfl⟩
  | rnd => exact ⟨_, decodesOn_rnd w h, rfl⟩
  | drw => exact ⟨_, decodesOn_drw w h, rfl⟩
  | skp => exact ⟨_, decodesOn_skp w h, rfl⟩
  | sknp => exact ⟨_, decodesOn_sknp w h, rfl⟩
  | ldVxDt => exact ⟨_, decodesOn_ldVxDt w h, rfl⟩
  | ldVxK => exact ⟨_, decodesOn_ldVxK w h, rfl⟩
  | ldDtVx => exact ⟨_, decodesOn_ldDtVx w h, rfl⟩
  | ldStVx => exact ⟨_, decodesOn_ldStVx w h, rfl⟩
  | addI => exact ⟨_, decodesOn_addI w h, rfl⟩
  | ldF => exact ⟨_, decodesOn_ldF w h, rfl⟩
  | ldB => exact ⟨_, decodesOn_ldB w h, rfl⟩
  | storeRegs => exact ⟨_, decodesOn_storeRegs w h, rfl⟩
  | loadRegs => exact ⟨_, decodesOn_loadRegs w h, rfl⟩

/-- Settles O2: a decoded word selects its row, and a word that selects a row decodes to it; the decoder
has one answer per word, so a miss selects no row and no word two. -/
theorem decoderFollowsOpcodeMap : Obligations.DecoderFollowsOpcodeMap := by
  refine ⟨fun w i h => (spells_of_decodeWord h).1, fun w why hmiss i hi => ?_, fun w i j hi hj => ?_⟩
  · obtain ⟨j, hj, -⟩ := decodeWord_of_row hi
    rw [hmiss] at hj
    cases hj
  · obtain ⟨i', hdi, hri⟩ := decodeWord_of_row hi
    obtain ⟨j', hdj, hrj⟩ := decodeWord_of_row hj
    rw [hdi] at hdj
    cases hdj
    exact hri.symm.trans hrj

end Sys2Proof
end

section
/-! Faults (spec/60_exceptions.md R201): which instructions raise one, and that a fault is all they do. -/

namespace Sys2Proof.Machine

/-- The fault of the range check (R56). -/
def rangeFault (base len : Nat) : Option Fault :=
  if pastEnd base len then some (.memOutOfRange (base + len - 1)) else none

theorem checkRange_of_rangeFault {base len : Nat} {c : Fault} (h : rangeFault base len = some c)
    (s t : State) : checkRange s base len t = .next (s.raise c) := by
  unfold rangeFault at h
  split at h
  · cases h
    simp [checkRange, *]
  · cases h

theorem checkRange_of_noRangeFault {base len : Nat} (h : rangeFault base len = none) (s t : State) :
    checkRange s base len t = .next t := by
  unfold rangeFault at h
  split at h
  · cases h
  · simp [checkRange, *]

theorem rangeFault_eq_none_iff (base len : Nat) :
    rangeFault base len = none ↔ len = 0 ∨ base + len - 1 ≤ 4095 := by
  simp only [rangeFault, pastEnd, ite_eq_right_iff, decide_eq_true_eq, reduceCtorEq, imp_false]
  omega

theorem rangeFault_of_le {base len : Nat} (h : base + len ≤ 4096) : rangeFault base len = none :=
  (rangeFault_eq_none_iff base len).2 (by omega)

theorem rangeFault_of_gt {base len : Nat} (h1 : 1 ≤ len) (h : 4096 < base + len) :
    rangeFault base len = some (.memOutOfRange (base + len - 1)) := by
  simp [rangeFault, (pastEnd_iff base len).2 ⟨h1, h⟩]

/-! ### The fault condition of the four instructions that access memory is their range check -/

@[simp] theorem faultOf_ldB (x : Reg) (s : State) : faultOf (.ldB x) s = rangeFault s.I.toNat 3 := by
  simp [faultOf, rangeFault, pastEnd]

@[simp] theorem faultOf_storeRegs (x : Reg) (s : State) :
    faultOf (.storeRegs x) s = rangeFault s.I.toNat (x.val + 1) := by
  simp [faultOf, rangeFault, pastEnd, ← Nat.add_assoc]

@[simp] theorem faultOf_loadRegs (x : Reg) (s : State) :
    faultOf (.loadRegs x) s = rangeFault s.I.toNat (x.val + 1) := by
  simp [faultOf, rangeFault, pastEnd, ← Nat.add_assoc]

@[simp] theorem faultOf_drw (x y : Reg) (n : Nat) (s : State) :
    faultOf (.drw x y n) s = rangeFault s.I.toNat (visibleRows n (s.spriteRow y)) := by
  simp [faultOf, rangeFault, pastEnd, visibleRows, State.spriteRow]

/-! ### Return, call and key wait, by cases -/

theorem exec_ret_of_nil {s : State} (h : s.stack = []) :
    exec .ret s = .next (s.raise .stackUnderflow) := by
  simp [exec, execRet, h]

theorem exec_ret_of_append {s : State} {rest : List Word} {v : Word} (h : s.stack = rest ++ [v]) :
    exec .ret s = .next { s with pc := v, stack := rest } := by
  simp [exec, execRet, h]

theorem exec_call_of_full (nnn : Word) {s : State} (h : 16 ≤ s.stack.length) :
    exec (.call nnn) s = .next (s.raise .stackOverflow) := by
  simp [exec, execCall, State.depth, h]

theorem exec_call_of_lt (nnn : Word) {s : State} (h : s.stack.length < 16) :
    exec (.call nnn) s = .next { s with pc := nnn, stack := s.stack ++ [s.pc + 2#16] } := by
  simp [exec, execCall, State.depth, Nat.not_le.2 h, State.push]

/-- A waiting Fx0A changes nothing: the fetch's increment is taken back (R173). -/
theorem exec_ldVxK_of_none (x : Reg) {s : State} (h : s.latchedKey = none) :
    exec (.ldVxK x) s = .next s := by
  simp [exec, execLdVxK, h, State.advance]

theorem exec_ldVxK_of_some (x : Reg) {s : State} {k : Key} (h : s.latchedKey = some k) :
    exec (.ldVxK x) s = .next (s.advance.setV x (BitVec.ofNat 8 k.val)) := by
  simp [exec, execLdVxK, h]

theorem exec_ret_cases {s t : State} (h : exec .ret s = .next t) :
    (s.stack = [] ∧ t = s.raise .stackUnderflow) ∨
    (∃ rest v, s.stack = rest ++ [v] ∧ t = { s with pc := v, stack := rest }) := by
  obtain hs | ⟨rest, v, hs⟩ := s.stack.eq_nil_or_concat'
  · cases (exec_ret_of_nil hs).symm.trans h
    exact .inl ⟨hs, rfl⟩
  · cases (exec_ret_of_append hs).symm.trans h
    exact .inr ⟨rest, v, hs, rfl⟩

theorem exec_call_cases {nnn : Word} {s t : State} (h : exec (.call nnn) s = .next t) :
    (16 ≤ s.stack.length ∧ t = s.raise .stackOverflow) ∨
    (s.stack.length < 16 ∧ t = { s with pc := nnn, stack := s.stack ++ [s.pc + 2#16] }) := by
  obtain hs | hs := Nat.lt_or_ge s.stack.length 16
  · cases (exec_call_of_lt nnn hs).symm.trans h
    exact .inr ⟨hs, rfl⟩
  · cases (exec_call_of_full nnn hs).symm.trans h
    exact .inl ⟨hs, rfl⟩

theorem exec_ldVxK_cases {x : Reg} {s t : State} (h : exec (.ldVxK x) s = .next t) :
    (s.latchedKey = none ∧ t = s) ∨
    (∃ k, s.latchedKey = some k ∧ t = s.advance.setV x (BitVec.ofNat 8 k.val)) := by
  cases hk : s.latchedKey with
  | none =>
    cases (exec_ldVxK_of_none x hk).symm.trans h
    exact .inl ⟨rfl, rfl⟩
  | some k =>
    cases (exec_ldVxK_of_some x hk).symm.trans h
    exact .inr ⟨k, rfl, rfl⟩

/-! ### The instructions that access memory, in range -/

theorem exec_ldB_of_noFault {x : Reg} {s : State} (h : faultOf (.ldB x) s = none) :
    exec (.ldB x) s =
      .next { s.advance with mem := s.mem.storeBytes s.I.toNat (decimalDigits (s.v x)) } :=
  checkRange_of_noRangeFault (faultOf_ldB x s ▸ h) _ _

theorem exec_storeRegs_of_noFault {x : Reg} {s : State} (h : faultOf (.storeRegs x) s = none) :
    exec (.storeRegs x) s =
      .next { s.advance with mem := s.mem.storeBytes s.I.toNat (s.regsUpTo x) } :=
  checkRange_of_noRangeFault (faultOf_storeRegs x s ▸ h) _ _

theorem exec_loadRegs_of_noFault {x : Reg} {s : State} (h : faultOf (.loadRegs x) s = none) :
    exec (.loadRegs x) s = .next { s.advance with V := loadUpTo s.mem s.I.toNat x s.V } :=
  checkRange_of_noRangeFault (faultOf_loadRegs x s ▸ h) _ _

/-- The frame buffer and the collision flag that Dxyn computes (R162). -/
def State.drawn (s : State) (x y : Reg) (n : Nat) : FrameBuffer × Bool :=
  drawRows s.mem s.I.toNat (s.spriteColumn x) (s.spriteRow y) (visibleRows n (s.spriteRow y)) s.fb

theorem exec_drw_of_noFault {x y : Reg} {n : Nat} {s : State} (h : faultOf (.drw x y n) s = none) :
    exec (.drw x y n) s =
      .next ({ s.advance with fb := (s.drawn x y n).1 }.setFlag (s.drawn x y n).2) :=
  checkRange_of_noRangeFault (faultOf_drw x y n s ▸ h) _ _

/-! ### An instruction faults exactly as tabled -/

/-- Under its fault condition an instruction raises the fault and does nothing else (R203). -/
theorem exec_of_fault {i : Instr} {s : State} {c : Fault} (h : faultOf i s = some c) :
    exec i s = .next (s.raise c) := by
  cases i with
  | ret =>
    by_cases hs : s.stack = []
    · simp only [faultOf, hs, if_true] at h
      cases h
      exact exec_ret_of_nil hs
    · simp [faultOf, hs] at h
  | call nnn =>
    by_cases hs : 16 ≤ s.stack.length
    · simp only [faultOf, hs, if_true] at h
      cases h
      exact exec_call_of_full nnn hs
    · simp [faultOf, hs] at h
  | drw x y n => exact checkRange_of_rangeFault (faultOf_drw x y n s ▸ h) _ _
  | ldB x => exact checkRange_of_rangeFault (faultOf_ldB x s ▸ h) _ _
  | storeRegs x => exact checkRange_of_rangeFault (faultOf_storeRegs x s ▸ h) _ _
  | loadRegs x => exact checkRange_of_rangeFault (faultOf_loadRegs x s ▸ h) _ _
  | _ => cases h

/-- Otherwise the instruction leaves `halt` alone. -/
theorem exec_halt {i : Instr} {s t : State} (hf : faultOf i s = none) (h : exec i s = .next t) :
    t.halt = s.halt := by
  cases i with
  | ret =>
    obtain ⟨hs, -⟩ | ⟨rest, v, -, rfl⟩ := exec_ret_cases h
    · simp [faultOf, hs] at hf
    · rfl
  | call nnn =>
    obtain ⟨hs, -⟩ | ⟨-, rfl⟩ := exec_call_cases h
    · simp [faultOf, hs] at hf
    · rfl
  | ldVxK x => obtain ⟨-, rfl⟩ | ⟨k, -, rfl⟩ := exec_ldVxK_cases h <;> rfl
  | drw => cases (exec_drw_of_noFault hf).symm.trans h; rfl
  | ldB => cases (exec_ldB_of_noFault hf).symm.trans h; rfl
  | storeRegs => cases (exec_storeRegs_of_noFault hf).symm.trans h; rfl
  | loadRegs => cases (exec_loadRegs_of_noFault hf).symm.trans h; rfl
  | _ => cases h; simp

/-- Settles O10: by whether the table gives a fault. -/
theorem execFaultsExactlyAsTabled : Obligations.ExecFaultsExactlyAsTabled := by
  intro i s
  cases hf : faultOf i s with
  | some c => exact ⟨_, exec_of_fault hf, rfl⟩
  | none =>
    obtain ⟨t, ht⟩ := exec_total i s
    exact ⟨t, ht, exec_halt hf ht⟩

end Sys2Proof.Machine
end

section
/-! Who writes what, said once over all instructions (spec/10_state.md). -/

namespace Sys2Proof

/-- The six skips. -/
def Instr.IsSkip (i : Instr) : Prop :=
  (∃ x nn, i = .seImm x nn ∨ i = .sneImm x nn) ∨ (∃ x y, i = .seReg x y ∨ i = .sneReg x y) ∨
  (∃ x, i = .skp x ∨ i = .sknp x)

/-- The six instructions that write VF as a flag (R23). -/
def Instr.WritesFlag (i : Instr) : Prop :=
  ∃ x y, i = .addReg x y ∨ i = .subReg x y ∨ i = .subnReg x y ∨ i = .shr x y ∨ i = .shl x y ∨
    ∃ n, i = .drw x y n

/-- The other instructions that can write VF, as their destination register (R22). -/
def Instr.HasDestinationVF (i : Instr) : Prop :=
  (∃ nn, i = .ldImm vf nn ∨ i = .addImm vf nn ∨ i = .rnd vf nn) ∨
  (∃ y, i = .ldReg vf y ∨ i = .orReg vf y ∨ i = .andReg vf y ∨ i = .xorReg vf y) ∨
  i = .ldVxDt vf ∨ i = .ldVxK vf ∨ i = .loadRegs vf

namespace Machine

/-- A skip after the fetch's increment, as one write of `pc`. -/
theorem State.advance_skipIf (s : State) (c : Bool) :
    s.advance.skipIf c = { s with pc := if c then s.pc + 4#16 else s.pc + 2#16 } := by
  cases c
  · rfl
  · show { s with pc := s.pc + 2#16 + 2#16 } = { s with pc := s.pc + 4#16 }
    rw [BitVec.add_assoc]
    rfl

/-- The writers of memory, of the frame buffer and of the two timers. -/
theorem exec_writers {i : Instr} {s t : State} (h : exec i s = .next t) :
    (t.mem = s.mem ∨ ∃ x, i = .ldB x ∨ i = .storeRegs x) ∧
    (t.fb = s.fb ∨ i = .cls ∨ ∃ x y n, i = .drw x y n) ∧
    (t.DT = s.DT ∨ ∃ x, i = .ldDtVx x) ∧ (t.ST = s.ST ∨ ∃ x, i = .ldStVx x) := by
  cases i with
  | ret => obtain ⟨-, rfl⟩ | ⟨rest, v, -, rfl⟩ := exec_ret_cases h <;> simp
  | call => obtain ⟨-, rfl⟩ | ⟨-, rfl⟩ := exec_call_cases h <;> simp
  | ldVxK => obtain ⟨-, rfl⟩ | ⟨k, -, rfl⟩ := exec_ldVxK_cases h <;> simp
  | drw | ldB | storeRegs | loadRegs => obtain rfl | rfl := checkRange_next h <;> simp
  | _ => cases h; simp

/-- Where an instruction that raises no fault leaves `pc` and the stack (R26, R108). -/
theorem exec_control {i : Instr} {s t : State} (hf : faultOf i s = none) (h : exec i s = .next t) :
    (t.pc = s.pc + 2#16 ∧ t.stack = s.stack) ∨
    (i.IsSkip ∧ t.pc = s.pc + 4#16 ∧ t.stack = s.stack) ∨
    (∃ nnn, i = .jp nnn ∧ t = { s with pc := nnn }) ∨
    (∃ nnn, i = .jpV0 nnn ∧ t = { s with pc := nnn + (s.v 0).setWidth 16 }) ∨
    (∃ nnn, i = .call nnn ∧ s.stack.length < 16 ∧
      t = { s with pc := nnn, stack := s.stack ++ [s.pc + 2#16] }) ∨
    (∃ rest v, i = .ret ∧ s.stack = rest ++ [v] ∧ t = { s with pc := v, stack := rest }) ∨
    (∃ x, i = .ldVxK x ∧ s.latchedKey = none ∧ t = s) := by
  cases i with
  | ret =>
    obtain ⟨hs, -⟩ | ⟨rest, v, hs, rfl⟩ := exec_ret_cases h
    · simp [faultOf, hs] at hf
    · simp [hs]
  | call =>
    obtain ⟨hs, -⟩ | ⟨hs, rfl⟩ := exec_call_cases h
    · simp [faultOf, hs] at hf
    · simp [hs]
  | ldVxK => obtain ⟨hk, rfl⟩ | ⟨k, -, rfl⟩ := exec_ldVxK_cases h <;> simp [*]
  | drw => cases (exec_drw_of_noFault hf).symm.trans h; simp
  | ldB => cases (exec_ldB_of_noFault hf).symm.trans h; simp
  | storeRegs => cases (exec_storeRegs_of_noFault hf).symm.trans h; simp
  | loadRegs => cases (exec_loadRegs_of_noFault hf).symm.trans h; simp
  | jp | jpV0 => cases h; simp
  | seImm | sneImm | seReg | sneReg | skp | sknp =>
    cases h
    rw [State.advance_skipIf]
    split <;> simp [Instr.IsSkip]
  | _ => cases h; simp

/-- Settles O47: the table is `exec_control`, read at `pc`. -/
theorem pcAdvancesAsTabled : Obligations.PcAdvancesAsTabled := by
  intro i s t h hf
  obtain ⟨hpc, -⟩ | ⟨hskip, hpc, -⟩ | ⟨nnn, rfl, -⟩ | ⟨nnn, rfl, -⟩ | ⟨nnn, rfl, -⟩ | ⟨-, -, rfl, -⟩ |
    ⟨x, rfl, -, rfl⟩ := exec_control hf h
  · simp [hpc]
  · exact .inr (.inr (.inl ⟨hskip, .inr hpc⟩))
  all_goals simp

/-! ### VF (R22, R23) -/

/-- A register write changes no register but its own. -/
theorem eq_of_v_setV_ne {s : State} {x q : Reg} {b : Byte} (h : (s.setV x b).v q ≠ s.v q) : x = q := by
  by_contra hx
  exact h (by rw [State.v_setV, if_neg (Ne.symm hx)])

/-- Only a flag-writing instruction, or one whose destination is VF, changes VF. -/
theorem exec_vf_changed {i : Instr} {s t : State} (h : exec i s = .next t) (hne : t.v vf ≠ s.v vf) :
    i.WritesFlag ∨ i.HasDestinationVF := by
  cases i with
  | addReg | subReg | subnReg | shr | shl | drw => simp [Instr.WritesFlag]
  | ldImm x | addImm x | rnd x | ldReg x | orReg x | andReg x | xorReg x | ldVxDt x =>
    cases h
    obtain rfl : x = vf := eq_of_v_setV_ne (s := s.advance) hne
    simp [Instr.HasDestinationVF]
  | ldVxK x =>
    obtain ⟨-, rfl⟩ | ⟨k, -, rfl⟩ := exec_ldVxK_cases h
    · exact absurd rfl hne
    · obtain rfl : x = vf := eq_of_v_setV_ne (s := s.advance) hne
      simp [Instr.HasDestinationVF]
  | loadRegs x =>
    obtain rfl | rfl := checkRange_next h
    · by_cases hx : vf ≤ x
      · simp [Instr.HasDestinationVF, Fin.le_antisymm (Fin.le_last x) hx]
      · exact absurd ((getElem_loadUpTo _ _ x vf _).trans (if_neg hx)) hne
    · exact absurd rfl hne
  | ret => obtain ⟨-, rfl⟩ | ⟨rest, v, -, rfl⟩ := exec_ret_cases h <;> exact absurd rfl hne
  | call => obtain ⟨-, rfl⟩ | ⟨-, rfl⟩ := exec_call_cases h <;> exact absurd rfl hne
  | ldB | storeRegs => obtain rfl | rfl := checkRange_next h <;> exact absurd rfl hne
  | _ => cases h; simp [State.v] at hne

/-- A flag-writing instruction that leaves the machine running leaves a flag in VF. -/
theorem exec_flag {i : Instr} {s t : State} (h : exec i s = .next t) (hrun : t.halt = none)
    (hi : i.WritesFlag) : t.v vf = 0#8 ∨ t.v vf = 1#8 := by
  obtain ⟨x, y, rfl | rfl | rfl | rfl | rfl | ⟨n, rfl⟩⟩ := hi
  case inr.inr.inr.inr.inr =>
    obtain rfl | rfl := checkRange_next h
    · simpa using flagByte_cases _
    · simp at hrun
  all_goals
    cases h
    simpa using flagByte_cases _

/-- Settles O24: an instruction writes its destination register, if it has one, and the six write a flag
into VF last. -/
theorem flagChangesOnlyAsTabled : Obligations.FlagChangesOnlyAsTabled :=
  fun _ _ _ h => ⟨exec_vf_changed h, fun _ => exec_flag h⟩

/-! ### What an instruction does not read (R219, R210) -/

/-- The state with other timers, another snapshot, another tone and another position. -/
def State.mapInputs (dt st : Byte → Byte) (kd kr : Option Key → Option Key) (tone : Bool → Bool)
    (p : Phase → Phase) (s : State) : State :=
  { s with
    DT := dt s.DT, ST := st s.ST, keyDown := kd s.keyDown, keyReleased := kr s.keyReleased
    tone := tone s.tone, phase := p s.phase }

section
variable {dt st : Byte → Byte} {kd kr : Option Key → Option Key} {tone : Bool → Bool} {p : Phase → Phase}

theorem checkRange_mapInputs {s t u : State} {base len : Nat}
    (h : checkRange s base len t = .next u) :
    checkRange (s.mapInputs dt st kd kr tone p) base len (t.mapInputs dt st kd kr tone p) =
      .next (u.mapInputs dt st kd kr tone p) := by
  cases hp : pastEnd base len <;>
    (simp only [checkRange, hp] at h ⊢
     cases h
     rfl)

/-- No instruction reads the tone or the position, and only six the timers or the snapshot: with other
values there an instruction does the same and keeps them. -/
theorem exec_mapInputs {i : Instr} {s t : State}
    (hi : (∀ x, i ≠ .skp x ∧ i ≠ .sknp x ∧ i ≠ .ldVxDt x ∧ i ≠ .ldVxK x ∧ i ≠ .ldDtVx x ∧ i ≠ .ldStVx x) ∨
      (dt = id ∧ st = id ∧ kd = id ∧ kr = id))
    (h : exec i s = .next t) :
    exec i (s.mapInputs dt st kd kr tone p) = .next (t.mapInputs dt st kd kr tone p) := by
  cases i with
  | skp x | sknp x =>
    obtain ⟨rfl, rfl, rfl, rfl⟩ := hi.resolve_left (by simp)
    simp only [exec, execSkp, execSknp, State.advance_skipIf] at h ⊢
    cases h
    rfl
  | ldVxK x =>
    obtain ⟨rfl, rfl, rfl, rfl⟩ := hi.resolve_left (by simp)
    obtain ⟨hk, rfl⟩ | ⟨k, hk, rfl⟩ := exec_ldVxK_cases h
    · exact exec_ldVxK_of_none (s := t.mapInputs id id id id tone p) x hk
    · exact exec_ldVxK_of_some (s := s.mapInputs id id id id tone p) x hk
  | ldVxDt x | ldDtVx x | ldStVx x =>
    obtain ⟨rfl, rfl, rfl, rfl⟩ := hi.resolve_left (by simp)
    cases h
    rfl
  | ret =>
    obtain ⟨hs, rfl⟩ | ⟨rest, v, hs, rfl⟩ := exec_ret_cases h
    · exact exec_ret_of_nil (s := s.mapInputs dt st kd kr tone p) hs
    · exact exec_ret_of_append (s := s.mapInputs dt st kd kr tone p) hs
  | call nnn =>
    obtain ⟨hs, rfl⟩ | ⟨hs, rfl⟩ := exec_call_cases h
    · exact exec_call_of_full nnn (s := s.mapInputs dt st kd kr tone p) hs
    · exact exec_call_of_lt nnn (s := s.mapInputs dt st kd kr tone p) hs
  | seImm | sneImm | seReg | sneReg =>
    simp only [exec, execSeImm, execSneImm, execSeReg, execSneReg, State.advance_skipIf] at h ⊢
    cases h
    rfl
  | drw | ldB | storeRegs | loadRegs => exact checkRange_mapInputs h
  | _ => cases h; rfl

end

/-- Settles O48: the five values are put in as constants and the position is kept. -/
theorem otherInstructionsIgnoreTimersAndKeys : Obligations.OtherInstructionsIgnoreTimersAndKeys :=
  fun _ _ _ dt st kd kr tone hi =>
    exec_mapInputs (dt := fun _ => dt) (st := fun _ => st) (kd := fun _ => kd) (kr := fun _ => kr)
      (tone := fun _ => tone) (p := id) (.inl hi)

end Machine
end Sys2Proof
end

section
/-! The step of the machine, by what it changes (spec/60_exceptions.md section 2). -/

namespace Sys2Proof.Machine

/-- An instruction step always answers a next state. -/
theorem instrStep_next_cases (s : State) : ∃ u, instrStep s = .next u ∧
    ((4094 < s.pc.toNat ∧ u = s.raise (.fetchOutOfRange s.pc.toNat)) ∨
     (s.pc.toNat ≤ 4094 ∧ u = s.advance) ∨
     (∃ i, s.executes i ∧ i.WellFormed ∧ exec i s = .next u)) := by
  obtain ⟨hpc, h⟩ | ⟨why, hpc, -, h⟩ | ⟨i, hx, hw, h⟩ := instrStep_cases s
  · exact ⟨_, h, .inl ⟨hpc, rfl⟩⟩
  · exact ⟨_, h, .inr (.inl ⟨hpc, rfl⟩)⟩
  · obtain ⟨u, hu⟩ := exec_total i s
    exact ⟨u, h.trans hu, .inr (.inr ⟨i, hx, hw, hu⟩)⟩

/-- A step either executes an instruction and moves the position, or it writes only what its position in
the frame names. -/
theorem step_writers {s t : State} (h : step s = .next t) :
    (∃ more i u p, s.phase = .burst more ∧ s.executes i ∧ exec i s = .next u ∧ t = { u with phase := p }) ∨
    (t.mem = s.mem ∧ t.fb = s.fb ∧ t.stack = s.stack ∧
      (t.keyDown = s.keyDown ∧ t.keyReleased = s.keyReleased ∨ s.phase = .sample ∨ s.phase = .clear) ∧
      (t.tone = s.tone ∨ s.phase = .soundBefore ∨ s.phase = .soundAfter) ∧
      (t.DT = s.DT ∧ t.ST = s.ST ∨ s.phase = .countdown)) := by
  obtain ⟨-, hs⟩ | ⟨-, ⟨hp, hs⟩ | ⟨hp, hs⟩ | ⟨hp, hs⟩ | ⟨more, hp, hs⟩ | ⟨hp, hs⟩ | ⟨hp, hs⟩ |
    ⟨hp, hs⟩⟩ := step_cases s
  case inr.inr.inr.inr.inl =>
    obtain ⟨u, hu, hcases⟩ := instrStep_next_cases s
    rw [hu, endInstr_next] at hs
    have ht : ∃ p, t = { u with phase := p } := by
      cases hs.symm.trans h
      split
      · exact ⟨u.phase, rfl⟩
      · exact ⟨_, rfl⟩
    obtain ⟨p, rfl⟩ := ht
    obtain ⟨-, rfl⟩ | ⟨-, rfl⟩ | ⟨i, hx, -, hexec⟩ := hcases
    · simp
    · simp
    · exact .inl ⟨more, i, u, p, hp, hx, hexec, rfl⟩
  all_goals
    cases hs.symm.trans h
    simp [*]

/-- Settles O43: outside an executed instruction memory is kept, and of the instructions two write it. -/
theorem onlyStoresChangeMemory : Obligations.OnlyStoresChangeMemory := by
  intro s t h hne
  obtain ⟨more, i, u, p, hp, hx, hexec, rfl⟩ | ⟨hmem, -⟩ := step_writers h
  · obtain ⟨hmem | ⟨x, rfl | rfl⟩, -⟩ := exec_writers hexec
    · exact absurd hmem hne
    · exact ⟨more, x, hp, .inl hx⟩
    · exact ⟨more, x, hp, .inr hx⟩
  · exact absurd hmem hne

/-- Settles O44: outside an executed instruction the frame buffer is kept, and of the instructions two
write it. -/
theorem onlyClearAndDrawChangePixels : Obligations.OnlyClearAndDrawChangePixels := by
  intro s t h hne
  obtain ⟨more, i, u, p, hp, hx, hexec, rfl⟩ | ⟨-, hfb, -⟩ := step_writers h
  · obtain ⟨-, hfb | rfl | ⟨x, y, n, rfl⟩, -⟩ := exec_writers hexec
    · exact absurd hfb hne
    · exact ⟨more, hp, .inl hx⟩
    · exact ⟨more, hp, .inr ⟨x, y, n, hx⟩⟩
  · exact absurd hfb hne

/-- Settles O45: a fault keeps the stack, and of the instructions that raise none two move it. -/
theorem onlyCallAndReturnMoveTheStack : Obligations.OnlyCallAndReturnMoveTheStack := by
  intro s t h hne
  obtain ⟨more, i, u, p, hp, hx, hexec, rfl⟩ | ⟨-, -, hstack, -⟩ := step_writers h
  · cases hf : faultOf i s with
    | some c =>
      cases (exec_of_fault hf).symm.trans hexec
      exact absurd rfl hne
    | none =>
      obtain ⟨-, hstack⟩ | ⟨-, -, hstack⟩ | ⟨nnn, rfl, rfl⟩ | ⟨nnn, rfl, rfl⟩ | ⟨nnn, rfl, -, rfl⟩ |
        ⟨rest, v, rfl, hs, rfl⟩ | ⟨x, rfl, -, rfl⟩ := exec_control hf hexec
      · exact absurd hstack hne
      · exact absurd hstack hne
      · exact absurd rfl hne
      · exact absurd rfl hne
      · exact .inl ⟨nnn, hx, rfl, rfl⟩
      · exact .inr ⟨hx, hs⟩
      · exact absurd rfl hne
  · exact absurd hstack hne

/-- Settles O46: no instruction writes the snapshot or the tone, and each timer has one writer among the
instructions. -/
theorem sequencerStateHasItsOwnWriters : Obligations.SequencerStateHasItsOwnWriters := by
  intro s t h
  obtain ⟨more, i, u, p, -, hx, hexec, rfl⟩ | ⟨-, -, -, hkeys, htone, htimers⟩ := step_writers h
  · obtain ⟨hkd, hkr, htone, -⟩ := exec_keeps hexec
    obtain ⟨-, -, hdt, hst⟩ := exec_writers hexec
    refine ⟨fun hne => ?_, fun hne => absurd htone hne, fun hne => ?_, fun hne => ?_⟩
    · exact absurd hkr (hne.resolve_left (not_not_intro hkd))
    · obtain ⟨x, rfl⟩ := hdt.resolve_left hne
      exact .inr ⟨x, hx⟩
    · obtain ⟨x, rfl⟩ := hst.resolve_left hne
      exact .inr ⟨x, hx⟩
  · refine ⟨fun hne => hkeys.resolve_left fun ⟨hkd, hkr⟩ => ?_, htone.resolve_left,
      fun hne => .inl (htimers.resolve_left fun h => hne h.1),
      fun hne => .inl (htimers.resolve_left fun h => hne h.2)⟩
    exact absurd hkr (hne.resolve_left (not_not_intro hkd))

/-- Settles O6: an executed instruction is a decoded one. -/
theorem burstStepRunsDecodedInstruction : Obligations.BurstStepRunsDecodedInstruction := by
  intro s more i hh hp hx
  have hstep : step s = endInstr more (exec i s) := by
    rw [step_of_burst hh hp, instrStep_of_executes hx]
  refine ⟨wellFormed_of_decodeWord hx.2, hstep, fun t ht => ?_⟩
  rw [hstep, ht, endInstr_next]
  cases t.halt <;> rfl

/-- An instruction step with `pc` above 4094 is a fetch fault (R53). -/
theorem instrStep_of_pc_gt {s : State} (h : 4094 < s.pc.toNat) :
    instrStep s = .next { s with halt := some (.fault (.fetchOutOfRange s.pc.toNat) s.pc) } := by
  rw [instrStep, State.fetch_of_gt s h]
  rfl

/-- Settles O8: the fetch fault halts the machine, so the position is kept. -/
theorem fetchPastEndRaisesFault : Obligations.FetchPastEndRaisesFault := by
  intro s more hh hp hpc
  rw [step_of_burst hh hp, instrStep_of_pc_gt hpc]
  rfl

/-- Settles O11, by induction on the number of steps. -/
theorem haltIsAbsorbing : Obligations.HaltIsAbsorbing := by
  intro n s hs
  induction n with
  | zero => rfl
  | succ n ih => exact (run_succ (step_of_halted hs) n).trans ih

/-! ### States that an instruction step leaves unchanged (R257) -/

/-- A word decodes to one instruction. -/
theorem State.executes_iff_eq {s : State} {i j : Instr} (h : s.executes i) : s.executes j ↔ i = j := by
  obtain ⟨hpc, hi⟩ := h
  constructor
  · rintro ⟨-, hj⟩
    rw [hi] at hj
    cases hj
    rfl
  · rintro rfl
    exact ⟨hpc, hi⟩

/-- The target of Bnnn does not wrap (R107). -/
theorem toNat_jpV0_target {nnn : Word} (h : fitsAddress nnn) (b : Byte) :
    (nnn + b.setWidth 16).toNat = nnn.toNat + b.toNat := by
  unfold fitsAddress at h
  bv_omega

/-- The instructions that change nothing: those that can leave `pc` where it is. -/
theorem exec_stationary_iff {i : Instr} {s : State} (hw : i.WellFormed) (hh : s.halt = none) :
    exec i s = .next s ↔ i = .jp s.pc ∨ (s.latchedKey = none ∧ ∃ x, i = .ldVxK x) ∨
      ∃ nnn, i = .jpV0 nnn ∧ nnn.toNat + (s.v 0).toNat = s.pc.toNat := by
  constructor
  · intro h
    cases hf : faultOf i s with
    | some c =>
      have hs : s.raise c = s := by simpa [h] using (exec_of_fault hf).symm
      have := congrArg State.halt hs
      simp [hh] at this
    | none =>
      obtain ⟨hpc, -⟩ | ⟨-, hpc, -⟩ | ⟨nnn, rfl, hs⟩ | ⟨nnn, rfl, hs⟩ | ⟨nnn, rfl, -, hs⟩ |
        ⟨rest, v, rfl, hstack, hs⟩ | ⟨x, rfl, hk, -⟩ := exec_control hf h
      · simp at hpc
      · simp at hpc
      · exact .inl (congrArg Instr.jp (congrArg State.pc hs).symm)
      · refine .inr (.inr ⟨nnn, rfl, ?_⟩)
        rw [← toNat_jpV0_target (of_decide_eq_true hw)]
        exact congrArg (fun u : State => u.pc.toNat) hs.symm
      · have := congrArg State.stack hs
        simp at this
      · have : s.stack = rest := congrArg State.stack hs
        simp [this] at hstack
      · exact .inr (.inl ⟨hk, x, rfl⟩)
  · rintro (rfl | ⟨hk, x, rfl⟩ | ⟨nnn, rfl, hsum⟩)
    · rfl
    · exact exec_ldVxK_of_none x hk
    · have hpc : nnn + (s.v 0).setWidth 16 = s.pc :=
        BitVec.eq_of_toNat_eq ((toNat_jpV0_target (of_decide_eq_true hw) _).trans hsum)
      show Host.Outcome.next { s with pc := nnn + (s.v 0).setWidth 16 } = .next s
      rw [hpc]

/-- A step that executes no instruction changes `halt` or `pc`. -/
theorem executes_of_stationary {s : State} (hh : s.halt = none) (h : instrStep s = .next s) :
    ∃ i, s.executes i := by
  obtain ⟨u, hu, hcases⟩ := instrStep_next_cases s
  cases hu.symm.trans h
  obtain ⟨-, hs⟩ | ⟨-, hs⟩ | ⟨i, hx, -⟩ := hcases
  · rw [hs] at hh
    simp at hh
  · have := congrArg State.pc hs
    simp at this
  · exact ⟨i, hx⟩

/-- Settles O50: only an executed instruction can change nothing, and three do. -/
theorem stationaryStatesCharacterised : Obligations.StationaryStatesCharacterised := by
  intro s hh
  by_cases hx : ∃ i, s.executes i
  · obtain ⟨i, hx⟩ := hx
    rw [instrStep_of_executes hx, exec_stationary_iff (wellFormed_of_decodeWord hx.2) hh]
    simp only [State.finished, State.waiting, State.waitsForKey_iff, State.executes_iff_eq hx, hh,
      true_and]
  · constructor
    · exact fun h => absurd (executes_of_stationary hh h) hx
    · rintro (⟨-, h⟩ | ⟨-, -, x, h⟩ | ⟨nnn, h, -⟩) <;> exact absurd ⟨_, h⟩ hx

/-- B200 at 0x200 with `V[0]` = 0: a jump to itself that is no 1nnn. -/
def offsetSelfJump : State := { State.reset with mem := [(0x200, 0xB2#8)] }

theorem offsetSelfJump_executes : offsetSelfJump.executes (.jpV0 0x200#16) := by
  unfold State.executes
  decide

/-- Refutes O49: `offsetSelfJump` is stationary, but its word is neither 1nnn nor Fx0A. -/
theorem not_stationaryOnlyAtSelfJumpOrKeyWait : ¬ Obligations.StationaryOnlyAtSelfJumpOrKeyWait := by
  intro h
  have hstep : instrStep offsetSelfJump = .next offsetSelfJump :=
    (instrStep_of_executes offsetSelfJump_executes).trans rfl
  obtain ⟨-, hx⟩ | ⟨-, -, x, hx⟩ := (h offsetSelfJump rfl).1 hstep
  all_goals
    rw [State.executes_iff_eq offsetSelfJump_executes] at hx
    cases hx

end Sys2Proof.Machine
end

section
/-! The invariant of the machine (R27, R29, R201, R203, R215, R229). -/

namespace Sys2Proof.Machine

/-- Settles O53: no call, no fault and no burst yet. -/
theorem invariantHoldsAtReset : Obligations.InvariantHoldsAtReset where
  mem := Memory.reset_wf
  depth := Nat.zero_le 16
  saved := by intro v hv; cases hv
  pc := by decide
  burst := by intro more h; cases h
  fault := by intro c a h; cases h
  stopped := by intro h; cases h

/-- A running state with the memory and stack of a state that meets the invariant meets it, within the
bound of `pc` and inside its burst. -/
theorem State.Inv.of_running {s t : State} (hs : s.Inv) (hmem : t.mem = s.mem)
    (hstack : t.stack = s.stack) (hpc : t.pc.toNat ≤ 0x10FE) (hhalt : t.halt = none)
    (hburst : ∀ more, t.phase = .burst more → more < Config.burst) : t.Inv where
  mem := hmem ▸ hs.mem
  depth := hstack ▸ hs.depth
  saved := hstack ▸ hs.saved
  pc := hpc
  burst := hburst
  fault := by simp [hhalt]
  stopped := by simp [hhalt]

/-- A fault raised in a burst under its condition keeps the invariant. -/
theorem State.Inv.raise {s : State} {c : Fault} {more : Nat} (hs : s.Inv) (hp : s.phase = .burst more)
    (hc : s.faultStands c) : (s.raise c).Inv where
  mem := hs.mem
  depth := hs.depth
  saved := hs.saved
  pc := hs.pc
  burst := hs.burst
  fault := by
    rintro c' a h
    cases h
    exact ⟨rfl, hc, more, hp⟩
  stopped := by intro h; cases h

/-- The host's stop at step 6 keeps the invariant (R229). -/
theorem State.Inv.stop {s : State} (hs : s.Inv) (hp : s.phase = .render) :
    { s with halt := some .stopped }.Inv where
  mem := hs.mem
  depth := hs.depth
  saved := hs.saved
  pc := hs.pc
  burst := hs.burst
  fault := by intro c a h; cases h
  stopped := fun _ => hp

theorem faultStands_of_rangeFault {s : State} {base len : Nat} {c : Fault} (h : rangeFault base len = some c) :
    s.faultStands c := by
  unfold rangeFault at h
  split at h
  · cases h
    have := (pastEnd_iff base len).1 ‹_›
    show 4095 < base + len - 1
    omega
  · cases h

/-- The table's fault conditions are what the invariant asks of a recorded fault. -/
theorem faultStands_of_faultOf {i : Instr} {s : State} {c : Fault} (hdepth : s.stack.length ≤ 16)
    (h : faultOf i s = some c) : s.faultStands c := by
  cases i with
  | ret =>
    simp only [faultOf, ite_eq_iff, Option.some.injEq] at h
    obtain ⟨hs, rfl⟩ | ⟨-, h⟩ := h
    · exact hs
    · cases h
  | call =>
    simp only [faultOf, ite_eq_iff, Option.some.injEq] at h
    obtain ⟨hs, rfl⟩ | ⟨-, h⟩ := h
    · exact Nat.le_antisymm hdepth hs
    · cases h
  | drw x y n => exact faultStands_of_rangeFault (faultOf_drw x y n s ▸ h)
  | ldB x => exact faultStands_of_rangeFault (faultOf_ldB x s ▸ h)
  | storeRegs x => exact faultStands_of_rangeFault (faultOf_storeRegs x s ▸ h)
  | loadRegs x => exact faultStands_of_rangeFault (faultOf_loadRegs x s ▸ h)
  | _ => cases h

/-- An instruction that raises no fault keeps the bounds of the stack and of `pc` (R27, R29). -/
theorem exec_bounds {i : Instr} {s t : State} (hw : i.WellFormed) (hs : s.Inv) (hpc : s.pc.toNat ≤ 4094)
    (hf : faultOf i s = none) (h : exec i s = .next t) :
    t.stack.length ≤ 16 ∧ (∀ v ∈ t.stack, v.toNat ≤ 4096) ∧ t.pc.toNat ≤ 0x10FE := by
  obtain ⟨ht, hstack⟩ | ⟨-, ht, hstack⟩ | ⟨nnn, rfl, rfl⟩ | ⟨nnn, rfl, rfl⟩ | ⟨nnn, rfl, hlt, rfl⟩ |
    ⟨rest, v, rfl, hstack, rfl⟩ | ⟨x, rfl, -, rfl⟩ := exec_control hf h
  · refine ⟨hstack ▸ hs.depth, hstack ▸ hs.saved, ?_⟩
    rw [ht]
    bv_omega
  · refine ⟨hstack ▸ hs.depth, hstack ▸ hs.saved, ?_⟩
    rw [ht]
    bv_omega
  · have hn : nnn.toNat < 4096 := of_decide_eq_true hw
    exact ⟨hs.depth, hs.saved, by show nnn.toNat ≤ _; omega⟩
  · have hn : nnn.toNat < 4096 := of_decide_eq_true hw
    refine ⟨hs.depth, hs.saved, ?_⟩
    show (nnn + (s.v 0).setWidth 16).toNat ≤ _
    rw [toNat_jpV0_target hn]
    have := (s.v 0).isLt
    omega
  · have hn : nnn.toNat < 4096 := of_decide_eq_true hw
    refine ⟨by simpa using hlt, fun v hv => ?_, by show nnn.toNat ≤ _; omega⟩
    obtain hv | hv := List.mem_append.1 hv
    · exact hs.saved v hv
    · rw [List.mem_singleton.1 hv]
      bv_omega
  · have hdepth := hs.depth
    have hsaved := hs.saved
    simp only [hstack, List.length_append, List.mem_append] at hdepth hsaved
    refine ⟨Nat.le_of_lt hdepth, fun u hu => hsaved u (.inl hu), ?_⟩
    have := hsaved v (.inr (List.mem_singleton_self v))
    show v.toNat ≤ _
    omega
  · exact ⟨hs.depth, hs.saved, hs.pc⟩

/-- An executed instruction keeps the invariant at its position. -/
theorem exec_inv {i : Instr} {s t : State} {more : Nat} (hs : s.Inv) (hh : s.halt = none)
    (hp : s.phase = .burst more) (hx : s.executes i) (h : exec i s = .next t) : t.Inv := by
  obtain ⟨hpc, hd⟩ := hx
  cases hf : faultOf i s with
  | some c =>
    cases (exec_of_fault hf).symm.trans h
    exact hs.raise hp (faultStands_of_faultOf hs.depth hf)
  | none =>
    obtain ⟨hdepth, hsaved, hbound⟩ := exec_bounds (wellFormed_of_decodeWord hd) hs hpc hf h
    have hhalt := (exec_halt hf h).trans hh
    obtain ⟨-, -, -, hphase, -⟩ := exec_keeps h
    exact {
      mem := exec_wf hs.mem h
      depth := hdepth
      saved := hsaved
      pc := hbound
      burst := hphase ▸ hs.burst
      fault := by simp [hhalt]
      stopped := by simp [hhalt] }

/-- An instruction step keeps the invariant at its position. -/
theorem instrStep_inv {s : State} {more : Nat} (hs : s.Inv) (hh : s.halt = none)
    (hp : s.phase = .burst more) : ∃ u, instrStep s = .next u ∧ u.Inv := by
  obtain ⟨u, hu, ⟨hpc, rfl⟩ | ⟨hpc, rfl⟩ | ⟨i, hx, -, hexec⟩⟩ := instrStep_next_cases s
  · exact ⟨_, hu, hs.raise hp ⟨rfl, hpc⟩⟩
  · have hadv : (s.pc + 2#16).toNat ≤ 0x10FE := by bv_omega
    exact ⟨_, hu, hs.of_running rfl rfl hadv hh hs.burst⟩
  · exact ⟨u, hu, exec_inv hs hh hp hx hexec⟩

theorem afterInstr_lt {more next n : Nat} (hm : more < n) (h : Phase.afterInstr more = .burst next) :
    next < n := by
  cases more with
  | zero => cases h
  | succ k =>
    cases h
    exact Nat.lt_of_succ_lt hm

/-- Settles O54, position by position: only an instruction step moves the stack or `pc`, and only the end
of one moves the position inside a burst. -/
theorem everyStepKeepsTheInvariant : Obligations.EveryStepKeepsTheInvariant := by
  intro s hs
  obtain ⟨-, ht⟩ | ⟨hh, ⟨hp, ht⟩ | ⟨hp, ht⟩ | ⟨hp, ht⟩ | ⟨more, hp, ht⟩ | ⟨hp, ht⟩ | ⟨hp, ht⟩ |
    ⟨hp, ht⟩⟩ := step_cases s
  · exact ⟨s, ht, hs⟩
  · exact ⟨_, ht, hs.of_running rfl rfl hs.pc hh (by simp)⟩
  · exact ⟨_, ht, hs.of_running rfl rfl hs.pc hh (by simp)⟩
  · exact ⟨_, ht, hs.of_running rfl rfl hs.pc hh (by simp [Config.burst])⟩
  · obtain ⟨u, hu, huInv⟩ := instrStep_inv hs hh hp
    rw [hu, endInstr_next] at ht
    refine ⟨_, ht, ?_⟩
    split
    case isTrue => exact huInv
    case isFalse hrun =>
      exact huInv.of_running rfl rfl huInv.pc (Option.not_isSome_iff_eq_none.1 hrun)
        fun _ => afterInstr_lt (hs.burst more hp)
  · exact ⟨_, ht, hs.of_running rfl rfl hs.pc hh (by simp)⟩
  · refine ⟨_, ht, ?_⟩
    unfold renderFrame
    split
    · exact hs.stop hp
    · exact hs.of_running rfl rfl hs.pc hh (by simp)
  · exact ⟨_, ht, hs.of_running rfl rfl hs.pc hh (by simp)⟩

end Sys2Proof.Machine
end

section
/-! Control transfer (spec/40_control.md). -/

namespace Sys2Proof.Machine

/-- Settles O12: the decoder's row, and the two cases of the stack. -/
theorem returnPopsTheStack : Obligations.ReturnPopsTheStack :=
  ⟨decodesOn_ret, fun _ _ _ => exec_ret_of_append, fun _ => exec_ret_of_nil⟩

/-- Settles O13: the jump is one write of `pc`. -/
theorem jumpSetsPc : Obligations.JumpSetsPc := by
  refine ⟨decodesOn_jp, fun nnn s => rfl, fun nnn s t h hpc => ?_, fun s => rfl⟩
  cases h
  exact instrStep_of_pc_gt hpc

/-- Settles O14: the decoder's row, and the two cases of the depth. -/
theorem callPushesReturnAddress : Obligations.CallPushesReturnAddress :=
  ⟨decodesOn_call, fun nnn _ => exec_call_of_lt nnn, fun nnn _ h => exec_call_of_full nnn h.ge⟩

theorem exec_seImm (x : Reg) (nn : Byte) (s : State) : exec (.seImm x nn) s =
    .next { s with pc := if s.v x = nn then s.pc + 4#16 else s.pc + 2#16 } := by
  simp [exec, execSeImm, State.advance_skipIf]

theorem exec_sneImm (x : Reg) (nn : Byte) (s : State) : exec (.sneImm x nn) s =
    .next { s with pc := if s.v x ≠ nn then s.pc + 4#16 else s.pc + 2#16 } := by
  simp [exec, execSneImm, State.advance_skipIf]

theorem exec_seReg (x y : Reg) (s : State) : exec (.seReg x y) s =
    .next { s with pc := if s.v x = s.v y then s.pc + 4#16 else s.pc + 2#16 } := by
  simp [exec, execSeReg, State.advance_skipIf]

theorem exec_sneReg (x y : Reg) (s : State) : exec (.sneReg x y) s =
    .next { s with pc := if s.v x ≠ s.v y then s.pc + 4#16 else s.pc + 2#16 } := by
  simp [exec, execSneReg, State.advance_skipIf]

/-- Settles O15: each skip is one write of `pc`, and any `pc` above 4094 faults at the next fetch. -/
theorem skipsOnImmediate : Obligations.SkipsOnImmediate :=
  ⟨decodesOn_seImm, decodesOn_sneImm, exec_seImm, exec_sneImm, fun _ _ _ _ _ => instrStep_of_pc_gt⟩

/-- Settles O16: each skip is one write of `pc`; a register equals itself. -/
theorem skipsOnRegisterPair : Obligations.SkipsOnRegisterPair :=
  ⟨decodesOn_seReg, decodesOn_sneReg, exec_seReg, exec_sneReg, fun x s =>
    ⟨by simp [exec_seReg], by simp [exec_sneReg]⟩⟩

/-- Settles O17: an address of 12 bits and a byte add up below 65536. -/
theorem jumpWithOffsetDoesNotWrap : Obligations.JumpWithOffsetDoesNotWrap :=
  ⟨decodesOn_jpV0, fun _ s h => ⟨_, rfl, toNat_jpV0_target h (s.v 0), rfl, instrStep_of_pc_gt⟩⟩

end Sys2Proof.Machine
end

section
/-! Arithmetic with a flag, and the random byte (spec/41_alu.md R126 to R130, R132). -/

namespace Sys2Proof.Machine

/-- What an instruction does whose meaning is a result in `V[x]` and then the flag in VF (R24). -/
theorem exec_writes_result {i : Instr} {s : State} {x : Reg} {b : Byte} {f : Bool}
    (h : exec i s = .next (s.advance.setResult x b f)) :
    ∃ t, exec i s = .next t ∧ t.pc = s.pc + 2#16 ∧ (x ≠ vf → t.v x = b) ∧ t.v vf = flagByte f ∧
      OnlyRegisters (fun r => r = x ∨ r = vf) s t :=
  ⟨_, h, by simp, fun hx => by simp [hx], by simp, onlyRegisters_setResult s x b f⟩

theorem toNat_sub_emod (a b : Byte) : ((a - b).toNat : Int) = (a.toNat - b.toNat : Int) % 256 := by
  rw [BitVec.toNat_sub]
  have := a.isLt
  have := b.isLt
  omega

/-- Settles O20: one result and its carry. -/
theorem addSetsCarry : Obligations.AddSetsCarry := by
  refine ⟨decodesOn_addReg, fun x y s => ?_⟩
  obtain ⟨t, ht, hpc, hx, hvf, hframe⟩ := exec_writes_result (i := .addReg x y) (s := s) rfl
  refine ⟨t, ht, hpc, fun h => hx h ▸ BitVec.toNat_add _ _, ?_, hframe⟩
  simp [hvf, flagByte, carry]

/-- Settles O21: two differences of bytes, each with its no-borrow flag. -/
theorem subtractSetsNoBorrow : Obligations.SubtractSetsNoBorrow := by
  refine ⟨decodesOn_subReg, decodesOn_subnReg, fun x y s => ⟨?_, ?_⟩⟩
  · obtain ⟨t, ht, hpc, hx, hvf, hframe⟩ := exec_writes_result (i := .subReg x y) (s := s) rfl
    refine ⟨t, ht, hpc, fun h => hx h ▸ toNat_sub_emod _ _, ?_, hframe⟩
    simp [hvf, flagByte, noBorrow]
  · obtain ⟨t, ht, hpc, hx, hvf, hframe⟩ := exec_writes_result (i := .subnReg x y) (s := s) rfl
    refine ⟨t, ht, hpc, fun h => hx h ▸ toNat_sub_emod _ _, ?_, hframe⟩
    simp [hvf, flagByte, noBorrow]

/-- Settles O22: two shifts by one bit, each with the bit it drops. -/
theorem shiftsMoveVyIntoVx : Obligations.ShiftsMoveVyIntoVx := by
  refine ⟨decodesOn_shr, decodesOn_shl, fun x y s => ⟨?_, ?_⟩⟩
  · obtain ⟨t, ht, hpc, hx, hvf, hframe⟩ := exec_writes_result (i := .shr x y) (s := s) rfl
    refine ⟨t, ht, hpc, fun h => ?_, hvf ▸ toNat_lowBit _, hframe⟩
    rw [hx h, BitVec.toNat_ushiftRight, Nat.shiftRight_one]
  · obtain ⟨t, ht, hpc, hx, hvf, hframe⟩ := exec_writes_result (i := .shl x y) (s := s) rfl
    refine ⟨t, ht, hpc, fun h => ?_, hvf ▸ toNat_highBit _, hframe⟩
    rw [hx h, BitVec.toNat_shiftLeft, Nat.shiftLeft_eq]

/-- Settles O23: one register write, and the counter of random bytes beside it. -/
theorem randomIsMaskedByte : Obligations.RandomIsMaskedByte := by
  refine ⟨decodesOn_rnd, fun x nn s => ⟨_, rfl, rfl, ?_, ?_, onlyRegisters_setV s x _, rfl⟩⟩
  · exact (State.v_setV _ _ _ _).trans (if_pos rfl)
  · rintro rfl
    exact (State.v_setV _ _ _ _).trans ((if_pos rfl).trans BitVec.and_zero)

end Sys2Proof.Machine
end

section
/-! The address register and memory (spec/42_index_memory.md R141, R143 to R146, R60). -/

namespace Sys2Proof.Machine

/-- Settles O26: the addition of words is modulo 65536. -/
theorem addToAddressWraps : Obligations.AddToAddressWraps := by
  refine ⟨decodesOn_addI, fun x s => ⟨_, rfl, ?_, rfl⟩⟩
  have hx : ((s.v x).setWidth 16).toNat = (s.v x).toNat := BitVec.toNat_setWidth_of_le (by decide)
  exact (BitVec.toNat_add _ _).trans (by rw [hx])

/-- Each byte stored in range reads back. -/
theorem Memory.read_storeBytes_getElem? {m : Memory} (hm : Memory.wf m) {base : Nat} {bs : List Byte}
    (hr : base + bs.length ≤ 4096) {k : Nat} {b : Byte} (hk : bs[k]? = some b) :
    (m.storeBytes base bs).read (base + k) = b := by
  have hlt : k < bs.length := (List.getElem?_eq_some_iff.1 hk).1
  rw [Memory.read_storeBytes hm base bs hr, if_pos (by omega), Nat.add_sub_cancel_left, hk]
  rfl

/-- What an instruction does that stores bytes at `I` in range. -/
theorem exec_stores {i : Instr} {s : State} {bs : List Byte} (hm : Memory.wf s.mem)
    (hr : s.I.toNat + bs.length ≤ 4096)
    (h : exec i s = .next { s.advance with mem := s.mem.storeBytes s.I.toNat bs }) :
    ∃ t, exec i s = .next t ∧ (∀ k b, bs[k]? = some b → t.mem.read (s.I.toNat + k) = b) ∧
      (∀ a, a < s.I.toNat ∨ s.I.toNat + bs.length ≤ a → t.mem.read a = s.mem.read a) ∧
      t = { s with pc := s.pc + 2#16, mem := t.mem } :=
  ⟨_, h, fun _ _ => Memory.read_storeBytes_getElem? hm hr,
    fun _ => Memory.read_storeBytes_outside hm _ _, rfl⟩

theorem exec_ldB_of_le {x : Reg} {s : State} (h : s.I.toNat + 2 ≤ 4095) : exec (.ldB x) s =
    .next { s.advance with mem := s.mem.storeBytes s.I.toNat (decimalDigits (s.v x)) } :=
  exec_ldB_of_noFault ((faultOf_ldB x s).trans (rangeFault_of_le (by omega)))

theorem exec_storeRegs_of_le {x : Reg} {s : State} (h : s.I.toNat + x.val ≤ 4095) :
    exec (.storeRegs x) s =
      .next { s.advance with mem := s.mem.storeBytes s.I.toNat (s.regsUpTo x) } :=
  exec_storeRegs_of_noFault ((faultOf_storeRegs x s).trans (rangeFault_of_le (by omega)))

theorem exec_loadRegs_of_le {x : Reg} {s : State} (h : s.I.toNat + x.val ≤ 4095) :
    exec (.loadRegs x) s = .next { s.advance with V := loadUpTo s.mem s.I.toNat x s.V } :=
  exec_loadRegs_of_noFault ((faultOf_loadRegs x s).trans (rangeFault_of_le (by omega)))

/-- Settles O27: the three bytes stored are the decimal digits. -/
theorem decimalStoreWritesThreeDigits : Obligations.DecimalStoreWritesThreeDigits := by
  refine ⟨decodesOn_ldB, fun x s hm hr => ?_, fun x s hr => ?_⟩
  · obtain ⟨t, ht, hread, hkept, hrest⟩ :=
      exec_stores hm (by rw [length_decimalDigits]; omega) (exec_ldB_of_le hr)
    have hdigits := toNat_decimalDigits (s.v x)
    simp only [decimalDigits, List.map_cons, List.map_nil, List.cons.injEq, and_true] at hdigits
    obtain ⟨hhundreds, htens, hones⟩ := hdigits
    exact ⟨t, ht, (congrArg BitVec.toNat (hread 0 _ rfl)).trans hhundreds,
      (congrArg BitVec.toNat (hread 1 _ rfl)).trans htens,
      (congrArg BitVec.toNat (hread 2 _ rfl)).trans hones, hkept, hrest⟩
  · exact exec_of_fault ((faultOf_ldB x s).trans (rangeFault_of_gt (by decide) (by omega)))

/-- Settles O28: the bytes stored are the registers up to `V[x]`. -/
theorem registerDumpStoresPrefix : Obligations.RegisterDumpStoresPrefix := by
  refine ⟨decodesOn_storeRegs, fun x s hm hr => ?_, fun x s hr => ?_⟩
  · obtain ⟨t, ht, hread, hkept, hrest⟩ :=
      exec_stores hm (by rw [State.length_regsUpTo]; omega) (exec_storeRegs_of_le hr)
    rw [State.length_regsUpTo] at hkept
    exact ⟨t, ht, fun r hrx => hread r _ (s.getElem_regsUpTo x r hrx), hkept, hrest⟩
  · exact exec_of_fault ((faultOf_storeRegs x s).trans (rangeFault_of_gt (by omega) (by omega)))

/-- Settles O29: each register up to `V[x]` is loaded from its address and no other. -/
theorem registerLoadReadsPrefix : Obligations.RegisterLoadReadsPrefix := by
  refine ⟨decodesOn_loadRegs, fun x s hr => ?_, fun x s hr => ?_⟩
  · exact ⟨_, exec_loadRegs_of_le hr, rfl,
      fun r hrx => (getElem_loadUpTo _ _ x r _).trans (if_pos hrx), rfl,
      fun r hrx => (getElem_loadUpTo _ _ x r _).trans (if_neg hrx), fun a => rfl⟩
  · exact exec_of_fault ((faultOf_loadRegs x s).trans (rangeFault_of_gt (by omega) (by omega)))

/-- Settles O30: what the load reads is what the dump stored. -/
theorem dumpThenLoadRestores : Obligations.DumpThenLoadRestores := by
  intro s t x other pc hm hr h
  obtain ⟨t', ht, hread, -, hrest⟩ := registerDumpStoresPrefix.2.1 x s hm hr
  cases ht.symm.trans h
  have hI : t.I = s.I := by rw [hrest]
  refine ⟨_, exec_loadRegs_of_le (s := { t with V := other, pc := pc }) (hI ▸ hr), ?_, ?_, hI, rfl⟩
  · intro r hrx
    exact (getElem_loadUpTo _ _ x r _).trans ((if_pos hrx).trans (hI ▸ hread r hrx))
  · exact fun r hrx => (getElem_loadUpTo _ _ x r _).trans (if_neg hrx)

/-- Settles O9: the fetch reads memory, and the dump stored its first two bytes at the next `pc`. -/
theorem nextFetchSeesRegisterDump : Obligations.NextFetchSeesRegisterDump := by
  intro s x hm hx hI hpc hr
  obtain ⟨t, ht, hread, -, hrest⟩ := registerDumpStoresPrefix.2.1 x s hm hr
  have htpc : t.pc = s.I := by rw [hrest, hI]
  refine ⟨t, ht, by rw [hrest], htpc, ?_⟩
  rw [State.word, htpc]
  exact congrArg₂ wordOfBytes (hread 0 (Fin.zero_le x)) (hread 1 hx)

end Sys2Proof.Machine
end

section
/-! Clear screen and draw (spec/43_display.md R160 to R163). -/

namespace Sys2Proof.Machine

/-- Settles O31: 00E0 writes the blank frame buffer. -/
theorem clearScreenZeroesEveryPixel : Obligations.ClearScreenZeroesEveryPixel :=
  ⟨decodesOn_cls, fun _ => ⟨_, rfl, FrameBuffer.get_blank, rfl⟩⟩

/-- Dxyn completes exactly when its rows on the screen lie in memory. -/
theorem faultOf_drw_eq_none_iff (x y : Reg) (n : Nat) (s : State) :
    faultOf (.drw x y n) s = none ↔ min n (32 - (s.v y).toNat % 32) = 0 ∨
      s.I.toNat + min n (32 - (s.v y).toNat % 32) - 1 ≤ 4095 := by
  rw [faultOf_drw, rangeFault_eq_none_iff]
  rfl

/-- What Dxyn computes, pixel by pixel, in the terms of R161. -/
theorem State.drawn_spec (s : State) (x y : Reg) (n : Nat) :
    (∀ r c, s.draws x y n r c → (s.drawn x y n).1.get r c = !s.fb.get r c) ∧
    (∀ r c, ¬s.draws x y n r c → (s.drawn x y n).1.get r c = s.fb.get r c) ∧
    ((s.drawn x y n).2 = true ↔ ∃ r c, s.draws x y n r c ∧ s.fb.get r c = true) := by
  obtain ⟨hpixels, hhit⟩ := drawRows_spec s.mem s.I.toNat (s.spriteColumn x) (s.spriteRow y)
    (visibleRows n (s.spriteRow y)) s.fb (spriteRow_add_visibleRows_le s y n)
  simp only [State.draws_iff]
  exact ⟨fun r c => (hpixels r c).1, fun r c => (hpixels r c).2, hhit⟩

theorem flagByte_eq_one_iff (f : Bool) : flagByte f = 1#8 ↔ f = true := by
  revert f; decide

/-- Settles O32: in range the draw writes what it computed, and the flag is whether it hit. -/
theorem drawFlipsSpritePixels : Obligations.DrawFlipsSpritePixels := by
  refine ⟨decodesOn_drw, fun x y n s hr => ?_⟩
  obtain ⟨hflip, hkeep, hhit⟩ := s.drawn_spec x y n
  refine ⟨_, exec_drw_of_noFault ((faultOf_drw_eq_none_iff x y n s).2 hr), rfl, hflip, hkeep, ?_, ?_,
    rfl, fun r hr => (State.v_setFlag _ _ _).trans (if_neg hr), fun _ => rfl⟩
  · simpa using (flagByte_cases _).symm
  · simpa [flagByte_eq_one_iff] using hhit

/-- Settles O33: the highest address is that of the last row on the screen. -/
theorem drawPastEndOfMemoryFaults : Obligations.DrawPastEndOfMemoryFaults := by
  intro x y n s hn hr
  have hrows : 1 ≤ visibleRows n (s.spriteRow y) := by
    unfold visibleRows State.spriteRow
    omega
  refine exec_of_fault ((faultOf_drw x y n s).trans (rangeFault_of_gt hrows ?_))
  unfold visibleRows State.spriteRow
  omega

/-- Where a sprite lands is decided by memory, `I` and the two coordinate registers. -/
theorem State.draws_congr {s t : State} {x y : Reg} (hmem : t.mem = s.mem) (hI : t.I = s.I)
    (hx : t.v x = s.v x) (hy : t.v y = s.v y) (n r c : Nat) :
    t.draws x y n r c ↔ s.draws x y n r c := by
  rw [State.draws, State.draws, hmem, hI, hx, hy]

/-- Settles O34: the second draw covers the same pixels and flips them back. -/
theorem drawingTwiceRestoresTheScreen : Obligations.DrawingTwiceRestoresTheScreen := by
  intro x y n s t pc hx hy hs h ht
  cases hf : faultOf (.drw x y n) s with
  | some c =>
    cases (exec_of_fault hf).symm.trans h
    cases ht
  | none =>
    cases (exec_drw_of_noFault hf).symm.trans h
    set t := { s.advance with fb := (s.drawn x y n).1 }.setFlag (s.drawn x y n).2
    have hvx : t.v x = s.v x := (State.v_setFlag _ _ _).trans (if_neg hx)
    have hvy : t.v y = s.v y := (State.v_setFlag _ _ _).trans (if_neg hy)
    set t' : State := { t with pc := pc }
    have hf' : faultOf (.drw x y n) t' = none := by
      rw [faultOf_drw_eq_none_iff] at hf ⊢
      exact hvy ▸ hf
    have hdraws := State.draws_congr (s := s) (t := t') rfl rfl hvx hvy n
    obtain ⟨hflip, hkeep, -⟩ := s.drawn_spec x y n
    obtain ⟨hflip', hkeep', hhit'⟩ := t'.drawn_spec x y n
    refine ⟨_, exec_drw_of_noFault hf', hs, FrameBuffer.ext_get fun r c => ?_, ?_⟩
    · by_cases hd : s.draws x y n r c
      · refine (hflip' r c ((hdraws r c).2 hd)).trans ?_
        rw [show t'.fb.get r c = _ from hflip r c hd, Bool.not_not]
      · exact (hkeep' r c (mt (hdraws r c).1 hd)).trans (hkeep r c hd)
    · rintro ⟨r, c, hd, hoff⟩
      have hlit : t'.fb.get r c = true := (hflip r c hd).trans (by rw [hoff]; rfl)
      simpa [flagByte_eq_one_iff] using hhit'.2 ⟨r, c, (hdraws r c).2 hd, hlit⟩

end Sys2Proof.Machine
end

section
/-! Keypad and timers (spec/44_keypad_timers.md). -/

namespace Sys2Proof.Machine

theorem exec_skp (x : Reg) (s : State) : exec (.skp x) s =
    .next { s with pc := if s.keyMatches x then s.pc + 4#16 else s.pc + 2#16 } := by
  simp [exec, execSkp, State.advance_skipIf]

theorem exec_sknp (x : Reg) (s : State) : exec (.sknp x) s =
    .next { s with pc := if s.keyMatches x then s.pc + 2#16 else s.pc + 4#16 } := by
  simp only [exec, execSknp, State.advance_skipIf]
  cases s.keyMatches x <;> rfl

theorem State.keyMatches_iff (s : State) (x : Reg) :
    s.keyMatches x = true ↔ ∃ k, s.keyDown = some k ∧ k.val = (s.v x).toNat := by
  unfold State.keyMatches
  split <;> simp [*]

/-- Settles O35: both skips test whether the key that is down is `V[x]`. -/
theorem keySkipsTestTheKeyDown : Obligations.KeySkipsTestTheKeyDown := by
  refine ⟨decodesOn_skp, decodesOn_sknp, fun x s k hk hx => ?_, fun x s hno => ?_⟩
  · have hmatch : s.keyMatches x = true := (s.keyMatches_iff x).2 ⟨k, hk, hx⟩
    simp [exec_skp, exec_sknp, hmatch]
  · have hmatch : ¬s.keyMatches x = true := fun h =>
      let ⟨k, hk, hx⟩ := (s.keyMatches_iff x).1 h
      hno k hk hx
    simp [exec_skp, exec_sknp, hmatch]

/-- Settles O36: the latched key is the one both down and released. -/
theorem keyWaitLatchesOrStalls : Obligations.KeyWaitLatchesOrStalls := by
  refine ⟨decodesOn_ldVxK, fun x s hw => exec_ldVxK_of_none x (s.waitsForKey_iff.1 hw),
    fun x s k hd hr => ?_⟩
  have hk : s.latchedKey = some k := by simp [State.latchedKey, hd, hr]
  obtain ⟨t, ht, hpc, hx, hframe⟩ := exec_writes_one_register (exec_ldVxK_of_some x hk)
  refine ⟨t, ht, hpc, ?_, hframe⟩
  rw [hx, BitVec.toNat_ofNat]
  exact Nat.mod_eq_of_lt (Nat.lt_trans k.isLt (by decide))

/-- Settles O37: one register write and two timer writes. -/
theorem timerTransfers : Obligations.TimerTransfers :=
  ⟨decodesOn_ldVxDt, decodesOn_ldDtVx, decodesOn_ldStVx, fun _ _ =>
    ⟨exec_writes_one_register rfl, rfl, rfl⟩⟩

end Sys2Proof.Machine
end

section
/-! The steps of the frame sequencer (spec/60_exceptions.md R212 to R217). -/

namespace Sys2Proof.Machine

/-- Settles O38: the work of steps 1 and 7. -/
theorem snapshotIsSampledAndCleared : Obligations.SnapshotIsSampledAndCleared :=
  ⟨fun _ => step_of_sample, fun _ => step_of_clear⟩

/-- Settles O39: each timer ticks once at step 2. -/
theorem timersCountDownOncePerFrame : Obligations.TimersCountDownOncePerFrame :=
  fun s hh hp => ⟨_, step_of_countdown hh hp, toNat_tick s.DT, toNat_tick s.ST, rfl⟩

/-- Settles O40: the work of steps 3 and 5. -/
theorem toneFollowsSoundTimer : Obligations.ToneFollowsSoundTimer :=
  ⟨fun _ hh hp => ⟨Config.burstMore, rfl, step_of_soundBefore hh hp⟩, fun _ => step_of_soundAfter⟩

/-- Settles O41: the work of step 6. -/
theorem renderStopsOrGoesOn : Obligations.RenderStopsOrGoesOn :=
  fun _ => step_of_render

end Sys2Proof.Machine
end

section
/-! Reset and construction (spec/70_reset_and_hazards.md R241, R242). -/

namespace Sys2Proof.Machine

/-- Settles O51: the fields of `State.reset`, and what an unlisted address reads as. -/
theorem resetValues : Obligations.ResetValues :=
  ⟨fun _ => rfl, rfl, fun r => by simp [State.v, State.reset], rfl, rfl, rfl, FrameBuffer.get_blank,
    rfl, rfl, rfl, rfl, rfl, rfl, rfl, rfl, rfl⟩

theorem Memory.resetByte_of_ge {a : Nat} (h : 80 ≤ a) : Memory.resetByte a = Config.memFill := by
  have hnone : Config.font[a]? = none := List.getElem?_eq_none h
  rw [Memory.resetByte, hnone]
  rfl

/-- The font is loaded below the ROM. -/
theorem Memory.read_load_font (font : Vector Byte 80) (rom : List Byte) {i : Nat} (h : i < 80) :
    (Memory.load font rom).read i = font[i] := by
  rw [Memory.load, Memory.read_storeBytes_outside (Memory.storeBytes_wf _ _ Memory.reset_wf) _ _
    (.inl (Nat.lt_trans h (by decide)))]
  have hread := Memory.read_storeBytes_getElem? Memory.reset_wf (base := 0) (bs := font.toList)
    (k := i) (b := font[i]) (by simp) (by simp [h])
  rwa [Nat.zero_add] at hread

theorem Memory.read_load_rom (font : Vector Byte 80) {rom : List Byte} (hr : rom.length ≤ 3584) {i : Nat}
    (h : i < rom.length) : (Memory.load font rom).read (0x200 + i) = rom[i] :=
  Memory.read_storeBytes_getElem? (Memory.storeBytes_wf _ _ Memory.reset_wf)
    (by show 512 + _ ≤ _; omega) (List.getElem?_eq_getElem h)

/-- Outside font and ROM memory reads as at reset. -/
theorem Memory.read_load_outside (font : Vector Byte 80) (rom : List Byte) {a : Nat} (hf : 80 ≤ a)
    (ha : a < 0x200 ∨ 0x200 + rom.length ≤ a) : (Memory.load font rom).read a = Config.memFill := by
  rw [Memory.load, Memory.read_storeBytes_outside (Memory.storeBytes_wf _ _ Memory.reset_wf) _ _ ha,
    Memory.read_storeBytes_outside Memory.reset_wf _ _ (.inr (by simpa using hf))]
  exact Memory.resetByte_of_ge hf

/-- Every constructed machine meets the invariant. -/
theorem inv_of_load (font : Vector Byte 80) (rom : List Byte) :
    { State.reset with mem := Memory.load font rom }.Inv :=
  { invariantHoldsAtReset with mem := Memory.load_wf font rom }

/-- Settles O55: the three ranges of the loaded memory, and the refusal. -/
theorem constructionLoadsFontAndRom : Obligations.ConstructionLoadsFontAndRom := by
  refine ⟨fun font rom hr => ?_, fun font rom hr => ?_⟩
  · obtain ⟨-, hc⟩ | ⟨hlong, -⟩ := State.construct_cases font rom
    · exact ⟨_, hc, fun i => Memory.read_load_font font rom, fun i => Memory.read_load_rom font hr,
        fun a => Memory.read_load_outside font rom, rfl, inv_of_load font rom⟩
    · omega
  · obtain ⟨hshort, -⟩ | ⟨-, hc⟩ := State.construct_cases font rom
    · omega
    · exact hc

/-- Settles O52: construction with the default font, which is what memory reads as at reset. -/
theorem romIsLoadedVerbatim : Obligations.RomIsLoadedVerbatim := by
  refine ⟨fun rom hr => ?_, fun rom hr => constructionLoadsFontAndRom.2 _ rom hr⟩
  obtain ⟨s, hs, hfont, hrom, hrest, heq, hinv⟩ := constructionLoadsFontAndRom.1 Config.defaultFont rom hr
  refine ⟨s, hs, hrom, fun a ha => ?_, heq, hinv⟩
  by_cases h : a < 80
  · have hbyte : Config.font[a]? = some Config.font[a] := List.getElem?_eq_getElem h
    show _ = Memory.resetByte a
    rw [hfont a h, Memory.resetByte, hbyte]
    rfl
  · rw [hrest a (Nat.le_of_not_lt h) ha]
    exact (Memory.resetByte_of_ge (Nat.le_of_not_lt h)).symm

end Sys2Proof.Machine
end

section
/-! The steps of a frame and the frame as one transition (spec/60_exceptions.md R211, R219). -/

namespace Sys2Proof.Machine

/-- The state at another position of the frame. -/
def State.withPhase (s : State) (p : Phase) : State := { s with phase := p }

/-- An instruction step does not read the position. -/
theorem instrStep_withPhase {s u : State} (h : instrStep s = .next u) (p : Phase) :
    instrStep (s.withPhase p) = .next (u.withPhase p) := by
  obtain ⟨hpc, hs⟩ | ⟨why, hpc, hw, hs⟩ | ⟨i, hx, -, hs⟩ := instrStep_cases s
  · cases hs.symm.trans h
    exact instrStep_of_pc_gt (s := s.withPhase p) hpc
  · cases hs.symm.trans h
    exact instrStep_of_miss (s := s.withPhase p) hpc hw
  · exact (instrStep_of_executes (s := s.withPhase p) hx).trans
      (exec_mapInputs (tone := id) (p := fun _ => p) (.inr ⟨rfl, rfl, rfl, rfl⟩) (hs.symm.trans h))

theorem instrStep_eq_instrState (s : State) : instrStep s = .next (instrState s) := by
  obtain ⟨u, hu, -⟩ := instrStep_next_cases s
  rw [instrState, hu]

theorem instrState_withPhase (s : State) (p : Phase) :
    instrState (s.withPhase p) = (instrState s).withPhase p := by
  rw [instrState, instrStep_withPhase (instrStep_eq_instrState s) p]

theorem instrState_frame (s : State) : (instrState s).frame = s.frame := by
  obtain ⟨u, hu, ⟨-, rfl⟩ | ⟨-, rfl⟩ | ⟨i, -, -, hexec⟩⟩ := instrStep_next_cases s
  · rw [instrState, hu]; rfl
  · rw [instrState, hu]; rfl
  · rw [instrState, hu]; exact (exec_keeps hexec).2.2.2.2

theorem burstState_succ_of_halted {s : State} (h : (instrState s).halt ≠ none) (k : Nat) :
    burstState (k + 1) s = instrState s :=
  if_pos (Option.isSome_iff_ne_none.2 h)

theorem burstState_succ_of_running {s : State} (h : (instrState s).halt = none) (k : Nat) :
    burstState (k + 1) s = burstState k (instrState s) :=
  if_neg (by simp [h])

/-- A burst does not read the position. -/
theorem burstState_withPhase (k : Nat) (s : State) (p : Phase) :
    burstState k (s.withPhase p) = (burstState k s).withPhase p := by
  induction k generalizing s with
  | zero => rfl
  | succ k ih =>
    have hi := instrState_withPhase s p
    by_cases h : (instrState s).halt = none
    · rw [burstState_succ_of_running h, burstState_succ_of_running (hi ▸ h), hi, ih]
    · rw [burstState_succ_of_halted h, burstState_succ_of_halted (hi ▸ h), hi]

/-- A run of the first steps and then the others. -/
theorem run_add {s t : State} {m : Nat} (h : core.run m s = .next t) (n : Nat) :
    core.run (m + n) s = core.run n t := by
  induction m generalizing s with
  | zero =>
    cases h
    rw [Nat.zero_add]
  | succ m ih =>
    cases hs : step s with
    | next s' =>
      rw [run_succ hs] at h
      rw [Nat.succ_add, run_succ hs, ih h]
    | fault r => simp [Host.Core.run, core, hs] at h
    | refused r => simp [Host.Core.run, core, hs] at h

theorem step_of_burst_halted {s : State} {more : Nat} (hh : s.halt = none) (hp : s.phase = .burst more)
    (h : (instrState s).halt ≠ none) : step s = .next (instrState s) := by
  rw [step_of_burst hh hp, instrStep_eq_instrState, endInstr_next,
    if_pos (Option.isSome_iff_ne_none.2 h)]

theorem step_of_burst_running {s : State} {more : Nat} (hh : s.halt = none) (hp : s.phase = .burst more)
    (h : (instrState s).halt = none) : step s = .next ((instrState s).withPhase (.afterInstr more)) := by
  rw [step_of_burst hh hp, instrStep_eq_instrState, endInstr_next_of_running more h]
  rfl

/-- The steps of a burst are the burst, up to the position. -/
theorem run_burst (k : Nat) {s : State} (hh : s.halt = none) (hp : s.phase = .burst k) :
    ∃ (t : State) (p : Phase), core.run (k + 1) s = .next t ∧
      (t.halt = none → t.phase = .soundAfter) ∧ t.frame = s.frame ∧
      burstState (k + 1) s = t.withPhase p := by
  induction k generalizing s with
  | zero =>
    by_cases h : (instrState s).halt = none
    · rw [run_succ (step_of_burst_running hh hp h), burstState_succ_of_running h]
      exact ⟨_, (instrState s).phase, rfl, fun _ => rfl, instrState_frame s, rfl⟩
    · rw [run_succ (step_of_burst_halted hh hp h), burstState_succ_of_halted h]
      exact ⟨_, (instrState s).phase, rfl, fun h' => absurd h' h, instrState_frame s, rfl⟩
  | succ k ih =>
    by_cases h : (instrState s).halt = none
    · rw [run_succ (step_of_burst_running hh hp h), burstState_succ_of_running h]
      obtain ⟨t, p, hrun, hphase, hframe, hburst⟩ := ih (s := (instrState s).withPhase (.burst k)) h rfl
      refine ⟨t, (instrState s).phase, hrun, hphase, hframe.trans (instrState_frame s), ?_⟩
      calc burstState (k + 1) (instrState s)
          = (burstState (k + 1) ((instrState s).withPhase (.burst k))).withPhase (instrState s).phase :=
            burstState_withPhase _ ((instrState s).withPhase (.burst k)) _
        _ = t.withPhase (instrState s).phase := by rw [hburst]; rfl
    · rw [run_succ (step_of_burst_halted hh hp h), burstState_succ_of_halted h]
      exact ⟨_, (instrState s).phase, haltIsAbsorbing _ _ h, fun h' => absurd h' h, instrState_frame s,
        rfl⟩

/-- Steps 5 to 7 of a frame, from the state that step 4 leaves (R211). -/
def endFrame (stop : Bool) (s : State) : State :=
  if s.halt.isSome then s
  else if stop then { s.evalTone with halt := some .stopped }
  else { s.evalTone with keyDown := none, keyReleased := none, frame := s.frame + 1 }

theorem endFrame_withPhase (stop : Bool) (s : State) (p : Phase) :
    endFrame stop (s.withPhase p) = (endFrame stop s).withPhase p := by
  unfold endFrame
  rw [apply_ite (State.withPhase · p), apply_ite (State.withPhase · p)]
  rfl

/-- The frame is its first three steps, the burst and its last three steps. -/
theorem frameState_eq {s : State} (hh : s.halt = none) (stop : Bool) :
    frameState (Config.hostKeyDown s.frame) (Config.hostKeyReleased s.frame) stop s =
      endFrame stop (burstState Config.burst
        ((soundBefore (countDown (sampleKeys s))).withPhase s.phase)) :=
  if_neg (by simp [hh])

/-- Three steps of the machine after a burst are the last three steps of the frame, up to the position. -/
theorem run_endFrame {s : State} (hp : s.halt = none → s.phase = .soundAfter) :
    ∃ t : State, core.run 3 s = .next t ∧ (t.halt = none → t.phase = .sample) ∧
      t.withPhase .sample = (endFrame (Config.hostStop s.frame) s).withPhase .sample := by
  by_cases hh : s.halt = none
  · have hend : endFrame (Config.hostStop s.frame) s = _ := if_neg (by simp [hh])
    have hsound : step s = .next (soundAfter s) := step_of_soundAfter hh (hp hh)
    have hrender : step (soundAfter s) = .next (renderFrame (soundAfter s)) := step_of_render hh rfl
    rw [hend, run_succ hsound, run_succ hrender]
    by_cases hstop : Config.hostStop s.frame = true
    · have hstopped : renderFrame (soundAfter s) = { soundAfter s with halt := some .stopped } :=
        if_pos hstop
      rw [hstopped, if_pos hstop]
      exact ⟨_, haltIsAbsorbing 1 _ (by simp), by simp, rfl⟩
    · have hon : renderFrame (soundAfter s) = { soundAfter s with phase := .clear } := if_neg hstop
      rw [hon, if_neg hstop]
      exact ⟨_, run_succ (step_of_clear (s := { soundAfter s with phase := .clear }) hh rfl) 0,
        fun _ => rfl, rfl⟩
  · have hend : endFrame (Config.hostStop s.frame) s = s := if_pos (Option.isSome_iff_ne_none.2 hh)
    exact ⟨s, haltIsAbsorbing 3 s hh, fun h => absurd h hh, by rw [hend]⟩

/-- Settles O42: the two views agree on the three parts of a frame. -/
theorem stepsOfAFrameRefineTheFrame : Obligations.StepsOfAFrameRefineTheFrame := by
  intro s hh hp
  let start := soundBefore (countDown (sampleKeys s))
  have hstart : core.run (Config.burst + 6) s = core.run (Config.burst + 3) start := by
    have hsample : step s = .next (sampleKeys s) := step_of_sample hh hp
    have hcount : step (sampleKeys s) = .next (countDown (sampleKeys s)) := step_of_countdown hh rfl
    have hsound : step (countDown (sampleKeys s)) = .next start := step_of_soundBefore hh rfl
    rw [run_succ hsample, run_succ hcount, run_succ hsound]
  obtain ⟨b, p, hburst, hphase, hframe, hb⟩ := run_burst Config.burstMore (s := start) hh rfl
  obtain ⟨t, hend, hsample, ht⟩ := run_endFrame hphase
  refine ⟨t, (hstart.trans (run_add hburst 3)).trans hend, hsample, ?_⟩
  have hb' : burstState Config.burst (start.withPhase s.phase) = b.withPhase s.phase := by
    rw [burstState_withPhase, Config.burst, hb]
    rfl
  have hstop : Config.hostStop b.frame = Config.hostStop s.frame := congrArg Config.hostStop hframe
  show t.withPhase .sample = (frameState _ _ _ s).withPhase .sample
  rw [ht, hstop, frameState_eq hh, hb', endFrame_withPhase]
  rfl

end Sys2Proof.Machine
end
